-- ==== Sys2Proof/Word.lean ====
section
/-! DEFINITION. The word and byte types of the model. -/

namespace Sys2Proof

/-- A 32-bit value: one copy of TTBCR2 (rule R11), a general register (R34), the program counter (R35),
an A32 instruction word or a T32 `hw1 : hw2` pair (R62, R63). -/
abbrev Word := BitVec 32

/-- One byte of an instruction in memory (decision D15). -/
abbrev Byte := BitVec 8

/-- The AArch64 register TCR_EL1 as the environment writes it (rule R13). -/
abbrev DoubleWord := BitVec 64

end Sys2Proof
end

