-- ==== Sys2Proof/Syntax.lean ====
section
/-! DEFINITION. The instructions: one constructor for each row of spec/opcode_table.json. -/

namespace Sys2Proof

/-- The fifteen conditions `<c>` names, in the order of their 4-bit codes 0b0000 to 0b1110 (rule R61,
PRESUMED with the spec: general knowledge there too). The code 0b1111 names none (R62). -/
inductive Cond where
  | eq | ne | cs | cc | mi | pl | vs | vc | hi | ls | ge | lt | gt | le | al
  deriving DecidableEq, Repr

/-- The two instruction sets of AArch32 state (rule R65). -/
inductive ISet where
  | a32 | t32
  deriving DecidableEq, Repr

/-- The 4-bit register number `t` of `<Rt>` (rule R64). -/
abbrev RegNum := Fin 16

/-- The four rows of the opcode table: MRC and MCR of TTBCR2, in A32 (with a condition) and in T32. -/
inductive Instr where
  /-- A32 `MRC<c> p15, 0, <Rt>, c2, c0, 3` (R62, R80). -/
  | mrcA32 (c : Cond) (t : RegNum)
  /-- A32 `MCR<c> p15, 0, <Rt>, c2, c0, 3` (R62, R81). -/
  | mcrA32 (c : Cond) (t : RegNum)
  /-- T32 `MRC p15, 0, <Rt>, c2, c0, 3` (R63, R80). -/
  | mrcT32 (t : RegNum)
  /-- T32 `MCR p15, 0, <Rt>, c2, c0, 3` (R63, R81). -/
  | mcrT32 (t : RegNum)
  deriving DecidableEq, Repr

/-- The instruction set an instruction belongs to. -/
def Instr.iset : Instr → ISet
  | .mrcA32 _ _ => .a32
  | .mcrA32 _ _ => .a32
  | .mrcT32 _ => .t32
  | .mcrT32 _ => .t32

/-- The register number of `<Rt>`. -/
def Instr.rt : Instr → RegNum
  | .mrcA32 _ t => t
  | .mcrA32 _ t => t
  | .mrcT32 t => t
  | .mcrT32 t => t

/-- Whether the instruction is a read, MRC (rule R60: the mnemonic carries the direction). -/
def Instr.isRead : Instr → Bool
  | .mrcA32 _ _ => true
  | .mcrA32 _ _ => false
  | .mrcT32 _ => true
  | .mcrT32 _ => false

end Sys2Proof
end

