-- ==== Sys2Proof/Config.lean ====
section
/-! DEFINITION. What an implementation fixes (rule R2, decisions D1, D12, D22) and the free values the
spec leaves open (decisions D2, D9, D12, D13, D19, D32). The features are plain data: every statement
quantifies over a state, hence over every implementation. The free values are uninterpreted. -/

namespace Sys2Proof

/-- The parameters of one implementation, fixed for its life (rule R2, decision D22). -/
structure Config where
  /-- `FEAT_AA32EL1`: the register needs it (R10). -/
  aa32EL1 : Bool
  /-- `FEAT_AA32HPD`: the register needs it (R10). -/
  aa32HPD : Bool
  /-- `FEAT_AA32EL2`: traps to an AArch32 EL2 need it (R102). -/
  aa32EL2 : Bool
  /-- `FEAT_AA32EL3`: TTBCR2_S and TTBCR2_NS need it (R12). -/
  aa32EL3 : Bool
  /-- `FEAT_AA64`: with EL3 implemented, TTBCR2 needs it (R12). -/
  aa64 : Bool
  /-- `FEAT_AA64EL2`: traps to an AArch64 EL2 need it (R101). -/
  aa64EL2 : Bool
  /-- `FEAT_HPDS2`: bits [18:11] are the HWU fields (R16 to R23). -/
  hpds2 : Bool
  /-- `HaveEL(EL3)`. -/
  haveEL3 : Bool
  /-- `RES0_STORAGE_MASK` (R27, decision D1): the RES0 positions that are storage. Its bits at field
  positions mean nothing: those positions hold state anyway. -/
  res0Storage : Word
  /-- Whether the syndrome detail `IssOf` (decision D12) is laid out as rule R104 says; when it is not,
  the detail is the free value `Config.issOf`. -/
  issFamily : Bool
  deriving DecidableEq, Repr

/-- FREE VALUE. `UNKNOWN_32` (decision D2): the `k`-th draw of a run. -/
opaque Config.unknownWord : Nat → Word

/-- FREE VALUE. Which of the values a walk may use (decisions D13, D14) it does use, at the `k`-th draw. -/
opaque Config.walkChoice : Nat → Nat

/-- FREE VALUE. Whether an instruction that fails its condition check, and whose body would raise, raises
all the same (rule R85, decision D9), at the `k`-th draw. -/
opaque Config.condFailRaises : Nat → Bool

/-- FREE VALUE. `HwuUse(n, b, entry_bit)` (rule R43, decision D19): a code for the IMPLEMENTATION DEFINED use
the hardware makes of bit `b`, when it may use it, in a walk through TTBR`n`. -/
opaque Config.hwuUse : Nat → Nat → Bool → Nat

/-- FREE VALUE. `IssOf` (decision D12): the 25-bit syndrome detail of an EL2 trap, from the
instruction: its instruction set, its direction (true for a read), its condition and its register number (R64, R104). -/
opaque Config.issOf : ISet → Bool → BitVec 4 → BitVec 4 → BitVec 25

/-- FREE VALUE. What general register `t` holds when nothing has written it (decision D32). -/
opaque Config.resetX : Nat → Word

end Sys2Proof
end

