-- ==== Sys2Proof/WellFormed.lean ====
section
/-! DEFINITION. Which instructions the spec gives a meaning to: the restrictions on `<Rt>` of rule R68 and
of the opcode table's "constraints". -/

namespace Sys2Proof

/-- `t = 15` is refused in both instructions and both instruction sets (R68, decision D8). -/
def Instr.rtNotFifteen (i : Instr) : Bool := i.rt != 15

/-- `t = 13` is refused in T32 (R68, decision D8). -/
def Instr.rtNotThirteenInT32 (i : Instr) : Bool := i.iset != .t32 || i.rt != 13

/-- An instruction the spec gives a meaning to. -/
def Instr.wf (i : Instr) : Bool := i.rtNotFifteen && i.rtNotThirteenInT32

end Sys2Proof
end

