-- ==== Sys2Proof/Decode.lean ====
section
/-! DEFINITION. The decoder (rules R60, R62, R63, R67, R68), total on any bytes and rejecting by name, and the
encoder written from the same layouts. -/

namespace Sys2Proof

/-- Why a word is no instruction of this spec. Every one is a refusal, neither executed nor faulted (R67,
decisions D7, D8). -/
inductive Reject where
  /-- Fewer than four bytes. -/
  | truncated
  /-- The fixed bits of MRC and MCR (R62, R63) are not there. -/
  | notMrcMcr
  /-- An A32 word with condition 0b1111 (R62, R67). -/
  | condFifteen
  /-- An MRC or MCR of another point of the System register encoding space (R67). -/
  | otherSystemRegister
  /-- `<Rt>` is 15 (R68). -/
  | rtFifteen
  /-- `<Rt>` is 13 in T32 (R68). -/
  | rtThirteen
  deriving DecidableEq, Repr

/-- What the decoder answers. -/
inductive Decoded where
  | instr (i : Instr)
  | reject (r : Reject)
  deriving DecidableEq, Repr

/-- The instruction a decoding gives, if it gives one. -/
def Decoded.toOption : Decoded → Option Instr
  | .instr i => some i
  | .reject _ => none

/-- The 4-bit code of a condition (R61, R62). -/
def Cond.bits : Cond → BitVec 4
  | .eq => 0 | .ne => 1 | .cs => 2 | .cc => 3 | .mi => 4 | .pl => 5 | .vs => 6 | .vc => 7
  | .hi => 8 | .ls => 9 | .ge => 10 | .lt => 11 | .gt => 12 | .le => 13 | .al => 14

/-- The condition of a 4-bit code; 0b1111 is none (R62). -/
def Cond.ofBits (b : BitVec 4) : Option Cond :=
  match b.toNat with
  | 0 => some .eq | 1 => some .ne | 2 => some .cs | 3 => some .cc
  | 4 => some .mi | 5 => some .pl | 6 => some .vs | 7 => some .vc
  | 8 => some .hi | 9 => some .ls | 10 => some .ge | 11 => some .lt
  | 12 => some .gt | 13 => some .le | 14 => some .al | _ => none

/-- The fields of the layout of rules R62 and R63, `hw1 : hw2` in T32. -/
structure Fields where
  top : BitVec 4
  op : BitVec 4
  opc1 : BitVec 3
  l : BitVec 1
  crn : BitVec 4
  rt : BitVec 4
  coproc : BitVec 4
  opc2 : BitVec 3
  one : BitVec 1
  crm : BitVec 4
  deriving DecidableEq, Repr

/-- The fields of a word, at the positions rules R62 and R63 give. -/
def fieldsOf (w : Word) : Fields :=
  { top := w.extractLsb' 28 4
    op := w.extractLsb' 24 4
    opc1 := w.extractLsb' 21 3
    l := w.extractLsb' 20 1
    crn := w.extractLsb' 16 4
    rt := w.extractLsb' 12 4
    coproc := w.extractLsb' 8 4
    opc2 := w.extractLsb' 5 3
    one := w.extractLsb' 4 1
    crm := w.extractLsb' 0 4 }

/-- The bits that make a word an MRC or MCR, whatever its condition (R62, R63). -/
def Fields.isMrcMcr (f : Fields) : Bool := f.op == 0b1110#4 && f.one == 1#1

/-- The five selection values of TTBCR2 (R60). -/
def Fields.selectsTtbcr2 (f : Fields) : Bool :=
  f.coproc == 0b1111#4 && f.opc1 == 0b000#3 && f.crn == 0b0010#4 && f.crm == 0b0000#4 && f.opc2 == 0b011#3

/-- Decode an A32 word (R62, R67, R68). -/
def decodeA32 (w : Word) : Decoded :=
  let f := fieldsOf w
  if !f.isMrcMcr then .reject .notMrcMcr
  else match Cond.ofBits f.top with
    | none => .reject .condFifteen
    | some c =>
      if !f.selectsTtbcr2 then .reject .otherSystemRegister
      else if f.rt == 15#4 then .reject .rtFifteen
      else if f.l == 1#1 then .instr (.mrcA32 c f.rt.toFin)
      else .instr (.mcrA32 c f.rt.toFin)

/-- Decode a T32 pair of halfwords, given as `hw1 : hw2` (R63, R67, R68). -/
def decodeT32 (w : Word) : Decoded :=
  let f := fieldsOf w
  if !(f.isMrcMcr && f.top == 0b1110#4) then .reject .notMrcMcr
  else if !f.selectsTtbcr2 then .reject .otherSystemRegister
  else if f.rt == 15#4 then .reject .rtFifteen
  else if f.rt == 13#4 then .reject .rtThirteen
  else if f.l == 1#1 then .instr (.mrcT32 f.rt.toFin)
  else .instr (.mcrT32 f.rt.toFin)

/-- Decode a 32-bit value in one instruction set (R65). -/
def decodeWord : ISet → Word → Decoded
  | .a32, w => decodeA32 w
  | .t32, w => decodeT32 w

/-- The four bytes of an instruction, lowest address first (decision D15): an A32 word is little-endian, a T32
instruction is two little-endian halfwords, `hw1` first. -/
def bytesOf : ISet → Word → List Byte
  | .a32, w => [w.extractLsb' 0 8, w.extractLsb' 8 8, w.extractLsb' 16 8, w.extractLsb' 24 8]
  | .t32, w => [w.extractLsb' 16 8, w.extractLsb' 24 8, w.extractLsb' 0 8, w.extractLsb' 8 8]

/-- The 32-bit value four bytes in memory spell (decision D15). -/
def wordOf : ISet → Byte → Byte → Byte → Byte → Word
  | .a32, b0, b1, b2, b3 => b3 ++ b2 ++ b1 ++ b0
  | .t32, b0, b1, b2, b3 => b1 ++ b0 ++ b3 ++ b2

/-- Decode the first instruction of a list of bytes; the bytes after it come back. -/
def decode (set : ISet) : List Byte → Decoded × List Byte
  | b0 :: b1 :: b2 :: b3 :: rest => (decodeWord set (wordOf set b0 b1 b2 b3), rest)
  | _ => (.reject .truncated, [])

/-- Lay the fields out as rules R62 and R63 say. -/
def Fields.word (f : Fields) : Word :=
  f.top ++ f.op ++ f.opc1 ++ f.l ++ f.crn ++ f.rt ++ f.coproc ++ f.opc2 ++ f.one ++ f.crm

/-- The fields of an access to TTBCR2: the selection values of R60 in the layout of R62 and R63. -/
def ttbcr2Fields (top : BitVec 4) (l : BitVec 1) (t : RegNum) : Fields :=
  { top := top, op := 0b1110#4, opc1 := 0b000#3, l := l, crn := 0b0010#4, rt := BitVec.ofNat 4 t.val,
    coproc := 0b1111#4, opc2 := 0b011#3, one := 1#1, crm := 0b0000#4 }

/-- The 32-bit value of an instruction (R62, R63). -/
def encode : Instr → Word
  | .mrcA32 c t => (ttbcr2Fields c.bits 1#1 t).word
  | .mcrA32 c t => (ttbcr2Fields c.bits 0#1 t).word
  | .mrcT32 t => (ttbcr2Fields 0b1110#4 1#1 t).word
  | .mcrT32 t => (ttbcr2Fields 0b1110#4 0#1 t).word

/-- The bytes of an instruction in memory, lowest address first. -/
def encodeBytes (i : Instr) : List Byte := bytesOf i.iset (encode i)

/-- The low `nbits` bits of a table word, the bits above them 0. -/
def tableWord (nbits w : Nat) : Word := BitVec.ofNat 32 (w % 2 ^ nbits)

/-- The instruction set a word of spec/opcode_table.json is read in. The value of a T32 row is also the value of
the A32 row of the same instruction with condition AL, and the table's number does not say which row was meant:
it is read as T32 where T32 has that instruction, as A32 otherwise (DESIGN CHOICE, log entry 16). -/
def tableISet (w : Word) : ISet :=
  match decodeT32 w with
  | .instr _ => .t32
  | .reject _ => .a32

/-- The instruction the decoder reads from a word numbered as spec/opcode_table.json numbers it: its bytes are laid
out as memory holds them and given to `decode`. -/
def decodeTableWord (nbits w : Nat) : Option Instr :=
  (decode (tableISet (tableWord nbits w)) (bytesOf (tableISet (tableWord nbits w)) (tableWord nbits w))).1.toOption

end Sys2Proof
end

