-- ==== Sys2Proof/Machine/State.lean ====
section
/-! DEFINITION. The state of the machine (rules R10 to R37), the agents' moves (00_scope.md section 7, decisions
D13, D14, D21, D33), the ways a step can stop, and the state after reset. All of it is plain data. -/

namespace Sys2Proof.Machine

/-! ## The register -/

/-- The three named copies of the register (rule R12). -/
inductive Bank where
  /-- TTBCR2, the spec's `I_PLAIN`. -/
  | plain
  /-- TTBCR2_S, the spec's `I_S`. -/
  | secure
  /-- TTBCR2_NS, the spec's `I_NS`. -/
  | nonsecure
  deriving DecidableEq, Repr

/-- What a copy of the register holds: the UNKNOWN content that a reset leaves (R33, decision D2), of which every
read and every use is a fresh draw, or the value last written (R84). -/
inductive Content where
  | unknown
  | known (v : Word)
  deriving DecidableEq, Repr

/-- One view of a copy of the register that a translation may act on: a content, and whether TTBCR.{EAE, T2E} was
{1, 1} (`Active` of rule R28) for it. -/
structure View where
  content : Content
  active : Bool
  deriving DecidableEq, Repr

/-- One storage cell, with what the translation hardware may still see of its past (rules R49, R51, R126). -/
structure Cell where
  /-- What MRC reads (R83). -/
  content : Content
  /-- The older contents that a walk may use in place of the new one, until a context synchronization event
  (R49, decision D13); no repeats. -/
  unsynced : List Content
  /-- The older views that a translation already held in a TLB may use, until the environment invalidates it
  (R51, R126, decision D14); no repeats. -/
  cached : List View
  deriving DecidableEq, Repr

/-! ## The context inputs (rule R31) -/

/-- The Exception levels (`PSTATE.EL`). -/
inductive EL where
  | el0 | el1 | el2 | el3
  deriving DecidableEq, Repr

/-- The level of an external signal (rule R32). -/
inductive Level where
  | low | high
  deriving DecidableEq, Repr

/-- The state the PE executes in (rule R65, decision D27). -/
inductive ExecState where
  | aarch32 (set : ISet)
  | aarch64
  deriving DecidableEq, Repr

/-- The two bits of one TTBCR (rules R28, R31). -/
structure Ttbcr where
  eae : Bool
  t2e : Bool
  deriving DecidableEq, Repr

/-- The context inputs of rule R31: state of other parts of the PE, read here and written only by the environment;
with them the instruction set state of R65 and what `ConditionPassed` (R85, decision D9) is supplied with. -/
structure Ctx where
  /-- `PSTATE.EL`. -/
  el : EL
  /-- The execution state and the instruction set state (R65). -/
  exec : ExecState
  /-- The condition an enclosing IT block gives a T32 instruction, if there is one (R63). -/
  itCond : Option Cond
  /-- The conditions other than AL that pass now: the table of the PE's `ConditionPassed` (R85). -/
  passing : List Cond
  /-- `EL2Enabled()`. -/
  el2Enabled : Bool
  /-- `ELUsingAArch32(EL2)`. -/
  el2UsingAArch32 : Bool
  /-- `ELUsingAArch32(EL3)`. -/
  el3UsingAArch32 : Bool
  /-- `HSTR_EL2.T2`. -/
  hstrEL2T2 : Bool
  /-- `HSTR.T2`. -/
  hstrT2 : Bool
  /-- `HCR_EL2.TRVM`. -/
  hcrEL2Trvm : Bool
  /-- `HCR.TRVM`. -/
  hcrTrvm : Bool
  /-- `HCR_EL2.TVM`. -/
  hcrEL2Tvm : Bool
  /-- `HCR.TVM`. -/
  hcrTvm : Bool
  /-- `SCR.NS`. -/
  scrNS : Bool
  /-- `CP15SDISABLE` (R32). -/
  cp15sdisable : Level
  /-- `CP15SDISABLE2` (R32). -/
  cp15sdisable2 : Level
  /-- The bits of TTBCR, the register of the same bank as TTBCR2 (decision D6). -/
  ttbcr : Ttbcr
  /-- The bits of TTBCR_S. -/
  ttbcrS : Ttbcr
  /-- The bits of TTBCR_NS. -/
  ttbcrNS : Ttbcr
  deriving DecidableEq, Repr

/-! ## Translations (20_memory.md section 2) -/

/-- Whether a translation is of stage 1 of the PL1&0 regime, the only one the register governs (R41). -/
inductive Regime where
  | pl10Stage1
  | other
  deriving DecidableEq, Repr

/-- The Security state of the PL1&0 regime translated for (R41, decision D5). -/
inductive Security where
  | secure | nonsecure
  deriving DecidableEq, Repr

/-- The translation table base a walk starts at (R41). -/
inductive Ttbr where
  | ttbr0 | ttbr1
  deriving DecidableEq, Repr

/-- The `n` of TTBR`n`. -/
def Ttbr.num : Ttbr → Nat
  | .ttbr0 => 0
  | .ttbr1 => 1

/-- A bit of a Block or Page entry that an HWU field concerns (R43). -/
inductive HwBit where
  | b59 | b60 | b61 | b62
  deriving DecidableEq, Repr

/-- The position of the bit in the entry. -/
def HwBit.pos : HwBit → Nat
  | .b59 => 59
  | .b60 => 60
  | .b61 => 61
  | .b62 => 62

/-- The four bits, highest first, as 95_test_vectors.md section 2.4 lists them. -/
def HwBit.all : List HwBit := [.b62, .b61, .b60, .b59]

/-- The ten one-bit fields of the register (rule R14): `HPD<n>`, and `HWU<n><b>`. -/
inductive Field where
  | hpd (n : Ttbr)
  | hwu (n : Ttbr) (b : HwBit)
  deriving DecidableEq, Repr

/-- The hierarchical control bits of one Table descriptor (R42). The width of APTable is PRESUMED
(log entry 13). -/
structure HierBits where
  apTable : BitVec 2
  xnTable : Bool
  pxnTable : Bool
  deriving DecidableEq, Repr

/-- A translation as this register sees it: what the walk algorithm, which is outside the spec, hands over. -/
structure WalkRequest where
  regime : Regime
  security : Security
  ttbr : Ttbr
  /-- The hierarchical bits of every Table descriptor read, in order (R42, decision D30). -/
  tables : List HierBits
  /-- The Block or Page entry the walk ends at (R43). -/
  entry : BitVec 64
  deriving DecidableEq, Repr

/-- What this register makes of a translation. -/
structure WalkResult where
  /-- The copy of the register that governed the translation, if it was of the PL1&0 regime, stage 1. -/
  bank : Option Bank
  /-- The `Eff` word the hardware acted on (R28). -/
  eff : Word
  /-- The hierarchical bits as the hardware takes them (R42). -/
  hier : List HierBits
  /-- The bits of the entry that the hardware may use, each with the code of its use (R43). -/
  uses : List (HwBit × Nat)
  deriving DecidableEq, Repr

/-! ## Moves of the agents other than an instruction (00_scope.md section 7, decisions D21, D33) -/

/-- The kinds of reset (R120, R121). -/
inductive ResetKind where
  | warm
  | otherReset
  deriving DecidableEq, Repr

/-- What a reset leaves in the state that this spec does not reset: inputs from the enclosing PE (R122). -/
structure ResetInputs where
  ctx : Ctx
  x : Vector Word 15
  pc : Word
  deriving DecidableEq, Repr

/-- A move of the environment, of the table walker or of reset. -/
inductive Move where
  /-- The environment changes the context inputs (R31, decisions D26, D29). -/
  | setContext (c : Ctx)
  /-- The environment writes TCR_EL1 (R13, decision D21). -/
  | writeTcr (v : DoubleWord)
  /-- The environment reads TCR_EL1[63:32] (R13, decision D21). -/
  | readTcr
  /-- A reset (R33, R120, R121). -/
  | reset (kind : ResetKind) (r : ResetInputs)
  /-- The walker performs a walk (R41 to R44, R49). -/
  | walk (q : WalkRequest)
  /-- A translation that may be served from a TLB (R51, R126). -/
  | translate (q : WalkRequest)
  /-- A context synchronization event (R49, R125). -/
  | contextSync
  /-- The environment invalidates the TLB and synchronises (decision D14). -/
  | tlbInvalidateSync
  deriving DecidableEq, Repr

/-- Whose turn it is: the PE executes its next instruction, or another agent moves. -/
inductive Turn where
  | pe
  | env (m : Move)
  deriving DecidableEq, Repr

/-- The bytes the enclosing PE supplies instructions in: pairs of an address and a byte, addresses strictly
rising. An address that is not listed has no value. -/
abbrev Memory := List Host.Cell

/-! ## Stops -/

/-- The case of rule R100 that an `Undefined` outcome falls under. -/
inductive UndefCause where
  /-- U1: the register is not implemented. -/
  | absent
  /-- U2: EL0. -/
  | el0
  /-- U3: a Secure write at EL3 while CP15SDISABLE is HIGH. -/
  | cp15sdisable
  /-- U4: a Secure write at EL3 while CP15SDISABLE2 is HIGH. -/
  | cp15sdisable2
  deriving DecidableEq, Repr

/-- The bit that traps an access to EL2 (rules R101, R102). -/
inductive TrapCause where
  /-- A1, H1: T2 of the HSTR of the EL2 in use. -/
  | t2
  /-- A2, H2: TRVM, for a read. -/
  | trvm
  /-- A3, H3: TVM, for a write. -/
  | tvm
  deriving DecidableEq, Repr

/-- The faults. The first three are the outcomes of 60_exceptions.md, handed to the enclosing PE with no state of this
spec changed; a model without an enclosing PE stops there (R106, decisions D11, D12). -/
inductive Fault where
  /-- `Undefined` (R100). Raised by all four instructions. Safe: the run stops where the PE would enter its handler. -/
  | undefined (why : UndefCause)
  /-- `TrapToEL2_A64(ec)` with the syndrome detail of decision D12 (R101). Raised by all four instructions at EL1.
  Safe, as above. -/
  | trapToEL2A64 (why : TrapCause) (ec : Nat) (iss : BitVec 25)
  /-- `HypTrap(ec)` with the syndrome detail of decision D12 (R102). Raised by all four instructions at EL1.
  Safe, as above. -/
  | hypTrap (why : TrapCause) (ec : Nat) (iss : BitVec 25)
  /-- The enclosing PE supplies no instruction at the pc: the run ends (decision D33). Raised by the fetch.
  Safe: "the PE goes on fetching; this spec does not". -/
  | noInstruction
  deriving DecidableEq, Repr

/-- The refusals: what the spec itself gives no meaning to. -/
inductive Refusal where
  /-- An instruction without a meaning yet. Raised by an arm of `exec` only; no arm does. Safe. -/
  | notModelled (mnemonic : String)
  /-- The bytes at the pc are no instruction of this spec (R67, R68, decisions D7, D8). Raised by the fetch. Safe. -/
  | notOfThisSpec (r : Reject)
  /-- `<Rt>` is a number that R68 refuses. Raised by all four instructions on an ill-formed operand, which the
  decoder never gives. Safe. -/
  | rtRefused (t : RegNum)
  /-- An access would be made in a context outside the premises of decision D20 (R82). Raised by all four
  instructions. Safe. -/
  | contextOutsidePremises
  /-- The PE is in AArch64 state, where neither instruction exists (R65, decision D27). Raised by the fetch. Safe. -/
  | aarch64State
  /-- The environment would change EL3's Execution state between two resets (decision D4). Raised by a context
  change. Safe. -/
  | el3StateChange
  deriving DecidableEq, Repr

/-! ## The state -/

/-- The state of the machine. -/
structure State where
  /-- The implementation (R2). No step changes it (decision D22). -/
  cfg : Config
  /-- The context inputs (R31, R32, R65, R85). -/
  ctx : Ctx
  /-- The general registers R0 to R14 of the current mode (R34). -/
  x : Vector Word 15
  /-- The program counter (R35). -/
  pc : Word
  /-- The cell of TTBCR2 and TTBCR2_NS, one cell under two names (R12, decision D4). -/
  srN : Cell
  /-- The cell of TTBCR2_S (R12). -/
  srS : Cell
  /-- The instruction bytes (decisions D15, D33). -/
  mem : Memory
  /-- Who moves next; an empty list leaves the turn to the PE (decision D33). -/
  schedule : List Turn
  /-- What the register made of the last translation, if there was one. -/
  lastWalk : Option WalkResult
  /-- What the environment last read of TCR_EL1[63:32], if it did. -/
  lastTcr : Option Word
  /-- The MODEL's own counter: how many free values have been drawn. -/
  draws : Nat
  deriving DecidableEq, Repr

/-- The outcome of a step. -/
abbrev Outcome := Host.Outcome State Fault Refusal

/-! ## The state after reset -/

/-- A cell of `State.reset`: UNKNOWN (R33). That no older content is left for walks and no older view in a TLB is a DESIGN CHOICE
(log entry 27): the spec does not say what a TLB holds then, and a reset as a move keeps what it held (`Cell.reset`). -/
def Cell.afterReset : Cell := { content := .unknown, unsynced := [], cached := [] }

/-- DESIGN CHOICE (log entry 1): the implementation of the reset state, that of program P1 of 95_test_vectors.md: the register is
present, with the HWU fields, with no EL2, no EL3, no AArch64 and no RES0 storage. -/
def configAtReset : Config :=
  { aa32EL1 := true, aa32HPD := true, aa32EL2 := false, aa32EL3 := false, aa64 := false, aa64EL2 := false,
    hpds2 := true, haveEL3 := false, res0Storage := 0, issFamily := false }

/-- DESIGN CHOICE and PRESUMED (log entry 2): the context of the reset state. The spec leaves every input of it
unconstrained at reset (R122, decision D32). EL1 is the highest level of that implementation; `passing` is the
conditions that pass with all condition flags 0. -/
def ctxAtReset : Ctx :=
  { el := .el1, exec := .aarch32 .a32, itCond := none, passing := [.ne, .cc, .pl, .vc, .ls, .ge, .gt],
    el2Enabled := false, el2UsingAArch32 := false, el3UsingAArch32 := false,
    hstrEL2T2 := false, hstrT2 := false, hcrEL2Trvm := false, hcrTrvm := false, hcrEL2Tvm := false, hcrTvm := false,
    scrNS := false, cp15sdisable := .low, cp15sdisable2 := .low,
    ttbcr := { eae := false, t2e := false }, ttbcrS := { eae := false, t2e := false },
    ttbcrNS := { eae := false, t2e := false } }

/-- The machine right after reset: every copy of the register UNKNOWN (R33), the general registers at free values
(decision D32), nothing in memory. The pc is a DESIGN CHOICE (log entry 3). -/
def State.reset : State :=
  { cfg := configAtReset
    ctx := ctxAtReset
    x := #v[Config.resetX 0, Config.resetX 1, Config.resetX 2, Config.resetX 3, Config.resetX 4, Config.resetX 5,
      Config.resetX 6, Config.resetX 7, Config.resetX 8, Config.resetX 9, Config.resetX 10, Config.resetX 11,
      Config.resetX 12, Config.resetX 13, Config.resetX 14]
    pc := 0
    srN := Cell.afterReset
    srS := Cell.afterReset
    mem := []
    schedule := []
    lastWalk := none
    lastTcr := none
    draws := 0 }

end Sys2Proof.Machine
end

