-- ==== Sys2Proof/Machine/Flags.lean ====
section
/-! DEFINITION. The condition check (rule R85). No rule writes a flag; the flags themselves are hidden behind
`ConditionPassed`, which the enclosing PE supplies (rule R36, decision D9). -/

namespace Sys2Proof.Machine

/-- `ConditionPassed` (rule R85): AL passes, any other condition as the enclosing PE says. -/
def conditionPassed (c : Ctx) (cond : Cond) : Bool := cond == .al || c.passing.contains cond

/-- The condition of a T32 instruction: that of the enclosing IT block, AL outside one (rules R63, R85). -/
def t32Cond (c : Ctx) : Cond := c.itCond.getD .al

end Sys2Proof.Machine
end

