-- ==== Sys2Proof/Machine/Memory.lean ====
section
/-! DEFINITION. The instruction bytes the enclosing PE supplies. Neither instruction reads or writes memory (rule R40);
only the fetch reads it, at 32-bit addresses (R35). An address that is not listed has no value (log entry 12). -/

namespace Sys2Proof.Machine

/-- Whether an address comes before every address of a list. -/
def Memory.below (a : Nat) : Memory → Bool
  | [] => true
  | c :: _ => a < c.1

/-- The canonical form: addresses strictly rising, each a 32-bit address. -/
def Memory.wf : Memory → Bool
  | [] => true
  | c :: m => decide (c.1 < 2 ^ 32) && Memory.below c.1 m && Memory.wf m

/-- The byte at an address, if it has one. -/
def Memory.read (a : Nat) : Memory → Option Byte
  | [] => none
  | c :: m => if c.1 = a then some c.2 else Memory.read a m

/-- Put a byte at an address. -/
def Memory.write (a : Nat) (b : Byte) : Memory → Memory
  | [] => [(a, b)]
  | c :: m =>
    if a < c.1 then (a, b) :: c :: m
    else if a = c.1 then (a, b) :: m
    else c :: Memory.write a b m

/-- The address of byte `k` of the instruction at a pc. Past the top of the address space it wraps (DESIGN CHOICE,
log entry 11). -/
def byteAddr (pc : Word) (k : Nat) : Nat := (pc + BitVec.ofNat 32 k).toNat

/-- Put bytes at an address and after it. -/
def Memory.writeBytes (pc : Word) (k : Nat) : List Byte → Memory → Memory
  | [], m => m
  | b :: bs, m => Memory.writeBytes pc (k + 1) bs (Memory.write (byteAddr pc k) b m)

/-- The four bytes of the instruction at a pc, if all of them are supplied. -/
def fetchBytes (pc : Word) (m : Memory) : Option (List Byte) :=
  match Memory.read (byteAddr pc 0) m, Memory.read (byteAddr pc 1) m, Memory.read (byteAddr pc 2) m,
      Memory.read (byteAddr pc 3) m with
  | some b0, some b1, some b2, some b3 => some [b0, b1, b2, b3]
  | _, _, _, _ => none

/-- What the fetch answers. -/
inductive Fetched where
  | instr (i : Instr)
  | fault (f : Fault)
  | refused (r : Refusal)
  deriving DecidableEq, Repr

/-- Fetch and decode the instruction at the pc, in the instruction set state of the PE (rule R65). -/
def fetchInstr (s : State) : Fetched :=
  match s.ctx.exec with
  | .aarch64 => .refused .aarch64State
  | .aarch32 set =>
    match fetchBytes s.pc s.mem with
    | none => .fault .noInstruction
    | some bs =>
      match (decode set bs).1 with
      | .instr i => .instr i
      | .reject r => .refused (.notOfThisSpec r)

/-- The state in which the PE's next instruction is the one of a table word: its bytes at the pc, in the instruction
set state it is of, and the PE's turn. -/
def placeTableWord (s : State) (nbits w : Nat) : State :=
  let v := tableWord nbits w
  { s with
    mem := Memory.writeBytes s.pc 0 (bytesOf (tableISet v) v) s.mem
    ctx := { s.ctx with exec := .aarch32 (tableISet v) }
    schedule := [] }

end Sys2Proof.Machine
end

