-- ==== Sys2Proof/Machine/Operands.lean ====
section
/-! DEFINITION. The one operand form of the two instructions: the general register `x[t]` (rules R34, R64, R68). -/

namespace Sys2Proof.Machine

/-- The register a number `t` names: `x[0]` to `x[14]`; 15 is refused, and 13 in T32 (rules R34, R68). -/
def rtIndex (set : ISet) (t : RegNum) : Option (Fin 15) :=
  if h : t.val < 15 then
    if set = .t32 ∧ t = 13 then none else some ⟨t.val, h⟩
  else none

/-- Read `x[t]` (rule R34). -/
def readX (k : Fin 15) (s : State) : Word := s.x[k]

/-- Write `x[t]` (rule R34). -/
def writeX (k : Fin 15) (v : Word) (s : State) : State := { s with x := s.x.set k v }

/-- Run an instruction on the register its operand names, or refuse it (rule R68). -/
def withRt (set : ISet) (t : RegNum) (body : Fin 15 → Outcome) : Outcome :=
  match rtIndex set t with
  | some k => body k
  | none => .refused (.rtRefused t)

end Sys2Proof.Machine
end

