-- ==== Sys2Proof/Machine/Register.lean ====
section
/-! DEFINITION. The register TTBCR2: presence, copies, masks, reads and writes, effective values (rules R10 to
R30, R83, R84), and what translation may still see of older values (rules R49, R51, R125, R126). -/

namespace Sys2Proof.Machine

/-! ## Presence and copies -/

/-- `Present` (rule R10). -/
def present (g : Config) : Bool := g.aa32EL1 && g.aa32HPD

/-- Which copies exist (rules R10, R12). -/
def bankExists (g : Config) : Bank → Bool
  | .plain => present g && (!g.haveEL3 || g.aa64)
  | .secure => present g && g.aa32EL3
  | .nonsecure => present g && g.aa32EL3

/-- `E3A32` (rule R12): EL3 is implemented and uses AArch32. -/
def e3a32 (g : Config) (c : Ctx) : Bool := g.haveEL3 && g.aa32EL3 && c.el3UsingAArch32

/-- The cell of a copy: TTBCR2 and TTBCR2_NS are one cell (decision D4). -/
def State.cell (s : State) : Bank → Cell
  | .plain => s.srN
  | .secure => s.srS
  | .nonsecure => s.srN

/-- Put a cell in the place of a copy's. -/
def State.setCell (s : State) (b : Bank) (k : Cell) : State :=
  match b with
  | .plain => { s with srN := k }
  | .secure => { s with srS := k }
  | .nonsecure => { s with srN := k }

/-! ## Fields -/

/-- The bit a field stands at (rules R14, R16 to R25): HPD0 9, HPD1 10, HWU059 to HWU062 11 to 14, HWU159 to HWU162
15 to 18. -/
def Field.pos : Field → Nat
  | .hpd n => 9 + n.num
  | .hwu n b => 11 + 4 * n.num + (b.pos - 59)

/-- When a field exists, in a register that is present (rules R16 to R25); elsewhere its bit is RES0. -/
def Field.existsIn (g : Config) : Field → Bool
  | .hpd _ => true
  | .hwu _ _ => g.hpds2

/-- The value of a field in a word. -/
def fieldValue (f : Field) (w : Word) : Bool := w.getLsbD f.pos

/-! ## Masks -/

/-- `FIELD_MASK` (rule R27). -/
def fieldMask (g : Config) : Word := if g.hpds2 then 0x0007FE00#32 else 0x00000600#32

/-- `RES0_POS` (rule R27). -/
def res0Pos (g : Config) : Word := ~~~(fieldMask g)

/-- `WRITE_MASK` (rule R27, decision D1): the bits that hold state. -/
def writeMask (g : Config) : Word := fieldMask g ||| (g.res0Storage &&& res0Pos g)

/-! ## Reading -/

/-- The 32 bits a content shows at draw `k` (rule R83): the stored value, or a fresh draw while UNKNOWN
(decision D2); a bit that holds no state shows 0 (R27). -/
def contentWord (g : Config) (c : Content) (k : Nat) : Word :=
  match c with
  | .unknown => Config.unknownWord k &&& writeMask g
  | .known v => v &&& writeMask g

/-- How many draws showing a content takes. -/
def contentDraws : Content → Nat
  | .unknown => 1
  | .known _ => 0

/-- `ReadSR` (rule R83): the value a read of a copy returns. -/
def readSR (b : Bank) (s : State) : Word := contentWord s.cfg (s.cell b).content s.draws

/-- The state after a read of a copy: only the draws move on. -/
def afterReadSR (b : Bank) (s : State) : State :=
  { s with draws := s.draws + contentDraws (s.cell b).content }

/-! ## The enable and the effective values -/

/-- The TTBCR of the same bank (decision D6). -/
def ttbcrOf (c : Ctx) : Bank → Ttbcr
  | .plain => c.ttbcr
  | .secure => c.ttbcrS
  | .nonsecure => c.ttbcrNS

/-- `Active(i)` (rule R28). -/
def active (g : Config) (c : Ctx) (b : Bank) : Bool :=
  present g && (ttbcrOf c b).eae && (ttbcrOf c b).t2e

/-- The `Eff` word of a view at draw `k` (rule R28); 0 when the register is absent (R10). -/
def viewEff (g : Config) (v : View) (k : Nat) : Word :=
  if present g && v.active then contentWord g v.content k &&& fieldMask g else 0#32

/-- The view the hardware has of a copy now, with every earlier write complete. -/
def currentView (s : State) (b : Bank) : View :=
  { content := (s.cell b).content, active := active s.cfg s.ctx b }

/-- `Eff(i)` (rule R28), of the value a copy holds now. -/
def eff (s : State) (b : Bank) : Word := viewEff s.cfg (currentView s b) s.draws

/-- `EffHPD<n>` of an `Eff` word (rule R29). -/
def effHpd (n : Ttbr) (e : Word) : Bool := fieldValue (.hpd n) e

/-- `EffHWU<n><b>` of an `Eff` word (rule R30). -/
def effHwu (g : Config) (n : Ttbr) (b : HwBit) (e : Word) : Bool :=
  g.hpds2 && effHpd n e && fieldValue (.hwu n b) e

/-! ## Writing, and what translation may still see -/

/-- Put an element in front of a list that does not hold it. -/
def addNew {α : Type} [DecidableEq α] (a : α) (l : List α) : List α := if a ∈ l then l else a :: l

/-- Put those elements of a list in front that the other does not hold. -/
def addAll {α : Type} [DecidableEq α] (as l : List α) : List α := as.foldr addNew l

/-- The views a walk may use of a cell: the new content, and the older ones until a context synchronization event
(rule R49); `a` is `Active`. -/
def Cell.views (a : Bool) (k : Cell) : List View :=
  (k.content :: k.unsynced).map fun c => { content := c, active := a }

/-- What a walk may use now, a TLB may hold from now on (rules R51, R126, decision D14). -/
def Cell.retire (a : Bool) (k : Cell) : Cell := { k with cached := addAll (k.views a) k.cached }

/-- The cell after a write of a value (rule R84): the old content stays usable by walks (R49) and by a TLB (R51). -/
def Cell.write (a : Bool) (v : Word) (k : Cell) : Cell :=
  { content := .known v, unsynced := addNew k.content k.unsynced, cached := (k.retire a).cached }

/-- The cell after a context synchronization event (rule R49): walks use the new content only. -/
def Cell.sync (a : Bool) (k : Cell) : Cell := { k.retire a with unsynced := [] }

/-- The cell after the environment has invalidated the TLB and synchronised (decision D14). -/
def Cell.invalidate (k : Cell) : Cell := { k with unsynced := [], cached := [] }

/-- The cell after a reset (rules R33, R120): UNKNOWN; a TLB is not said to be invalidated. -/
def Cell.reset (a : Bool) (k : Cell) : Cell :=
  { content := .unknown, unsynced := [], cached := (k.retire a).cached }

/-- A cell with the views that a TLB may hold of another cell as well. -/
def Cell.share (other k : Cell) : Cell := { k with cached := addAll other.cached k.cached }

/-- `WriteSR` (rule R84): `SR[i] <- v & WRITE_MASK`. -/
def writeSR (b : Bank) (v : Word) (s : State) : State :=
  s.setCell b ((s.cell b).write (active s.cfg s.ctx b) (v &&& writeMask s.cfg))

end Sys2Proof.Machine
end

