-- ==== Sys2Proof/Machine/Ops.lean ====
section
/-! DEFINITION. The operations the instructions share: the premises on the context (decision D20), instance selection
(rule R82), the checks before an access and the outcomes they raise (rules R100 to R105), and the condition
check around an instruction (rule R85). -/

namespace Sys2Proof.Machine

/-! ## The premises and instance selection -/

/-- The premises (a) to (f) of decision D20 on a context. -/
def premises (g : Config) (c : Ctx) : Bool :=
  (c.el != .el3 || e3a32 g c)
  && (!(g.haveEL3 && !g.aa64) || (g.aa32EL3 && c.el3UsingAArch32))
  && (!(c.el3UsingAArch32 && c.el2Enabled) || c.el2UsingAArch32)
  && (!(c.el2Enabled && c.el2UsingAArch32) || g.aa32EL2)
  && (!(c.el2Enabled && !c.el2UsingAArch32) || g.aa64EL2)
  && (c.el != .el2 || c.el2Enabled)
  && c.exec != .aarch64

/-- `SelectInstance` (rule R82), the total formula. -/
def selectBank (g : Config) (c : Ctx) : Bank :=
  if c.el = .el3 then (if c.scrNS then .nonsecure else .secure)
  else if e3a32 g c then .nonsecure
  else .plain

/-- The copy an access reaches; outside the premises there is none and the access is refused (rule R82,
decision D20, 90_conflicts.md C5). -/
def accessBank (s : State) : Option Bank :=
  if premises s.cfg s.ctx then some (selectBank s.cfg s.ctx) else none

/-! ## The outcomes an access can raise -/

/-- The exception class both traps carry (rule R103). -/
def trapEc : Nat := 0x03

/-- The syndrome detail as rule R104 lays it out, for TTBCR2: CV = 1, COND, Opc2 = 3, Opc1 = 0, CRn = 2, Rt, CRm = 0,
Direction. DESIGN CHOICE (log entry 25): a T32 access has CV = 1 as well. -/
def familyIss (isRead : Bool) (cond rt : BitVec 4) : BitVec 25 :=
  1#1 ++ cond ++ 0b011#3 ++ 0b000#3 ++ 0b0010#4 ++ (0#1 ++ rt) ++ 0b0000#4 ++ BitVec.ofBool isRead

/-- The whole syndrome register EC : IL : ISS as rule R104 lays it out, for a 32-bit instruction. -/
def familySyndrome (ec : BitVec 6) (iss : BitVec 25) : Word := ec ++ 1#1 ++ iss

/-- `IssOf` (decision D12): the layout of R104 in an implementation that uses it, otherwise a free value of
the whole instruction, its instruction set included.
DESIGN CHOICE (log entry 25): for a T32 access, of whose CV and COND R64 and R104 say nothing, `cond` is the condition of its IT
block, AL outside one. -/
def issOf (g : Config) (set : ISet) (isRead : Bool) (cond : Cond) (k : Fin 15) : BitVec 25 :=
  if g.issFamily then familyIss isRead cond.bits (BitVec.ofNat 4 k.val)
  else Config.issOf set isRead cond.bits (BitVec.ofNat 4 k.val)

/-- Raise an outcome (rules R86, R106): the ONE way an instruction of this spec takes an exception. The state stays as it
was, and the outcome goes to the enclosing PE, which owns entry and return. -/
def raise (f : Fault) : Outcome := .fault f

/-- The four tests of the EL1 branch, in their order (rules R80, R81, R101, R102, R105). `vmA64` and `vmA32` are
`HCR_EL2.TRVM` and `HCR.TRVM` for a read, `HCR_EL2.TVM` and `HCR.TVM` for a write; `vmCause` says which. -/
def el1Trap (g : Config) (c : Ctx) (vmA64 vmA32 : Bool) (vmCause : TrapCause) (iss : BitVec 25) : Option Fault :=
  if c.el2Enabled && g.aa64EL2 && !c.el2UsingAArch32 && c.hstrEL2T2 then some (.trapToEL2A64 .t2 trapEc iss)
  else if c.el2Enabled && g.aa32EL2 && c.el2UsingAArch32 && c.hstrT2 then some (.hypTrap .t2 trapEc iss)
  else if c.el2Enabled && g.aa64EL2 && !c.el2UsingAArch32 && vmA64 then some (.trapToEL2A64 vmCause trapEc iss)
  else if c.el2Enabled && g.aa32EL2 && c.el2UsingAArch32 && vmA32 then some (.hypTrap vmCause trapEc iss)
  else none

/-- What a read raises before its access, if it raises anything (rule R80). -/
def readRaises (g : Config) (c : Ctx) (iss : BitVec 25) : Option Fault :=
  if !present g then some (.undefined .absent)
  else match c.el with
    | .el0 => some (.undefined .el0)
    | .el1 => el1Trap g c c.hcrEL2Trvm c.hcrTrvm .trvm iss
    | .el2 => none
    | .el3 => none

/-- What a write raises before its access, if it raises anything (rule R81). -/
def writeRaises (g : Config) (c : Ctx) (iss : BitVec 25) : Option Fault :=
  if !present g then some (.undefined .absent)
  else match c.el with
    | .el0 => some (.undefined .el0)
    | .el1 => el1Trap g c c.hcrEL2Tvm c.hcrTvm .tvm iss
    | .el2 => none
    | .el3 =>
      if !c.scrNS && c.cp15sdisable == .high then some (.undefined .cp15sdisable)
      else if !c.scrNS && c.cp15sdisable2 == .high then some (.undefined .cp15sdisable2)
      else none

/-! ## Completion and the condition check -/

/-- `pc <- pc + 4` (rule R35, decision D10). -/
def advancePc (s : State) : State := { s with pc := s.pc + 4#32 }

/-- `Execute` (rule R85): the body if the condition passes; if it fails, either only the pc moves on, or, where the body
would raise, the same raise: a free choice (decision D9). -/
def underCondition (cond : Cond) (body : State → Outcome) (s : State) : Outcome :=
  if conditionPassed s.ctx cond then body s
  else match body s with
    | .fault f =>
      if Config.condFailRaises s.draws then raise f
      else .next (advancePc { s with draws := s.draws + 1 })
    | .next _ => .next (advancePc s)
    | .refused _ => .next (advancePc s)

/-- `MRC_TTBCR2(t)` (rule R80). -/
def mrcBody (set : ISet) (cond : Cond) (k : Fin 15) (s : State) : Outcome :=
  match readRaises s.cfg s.ctx (issOf s.cfg set true cond k) with
  | some f => raise f
  | none =>
    match accessBank s with
    | none => .refused .contextOutsidePremises
    | some b => .next (advancePc (writeX k (readSR b s) (afterReadSR b s)))

/-- `MCR_TTBCR2(t)` (rule R81). -/
def mcrBody (set : ISet) (cond : Cond) (k : Fin 15) (s : State) : Outcome :=
  match writeRaises s.cfg s.ctx (issOf s.cfg set false cond k) with
  | some f => raise f
  | none =>
    match accessBank s with
    | none => .refused .contextOutsidePremises
    | some b => .next (advancePc (writeSR b (readX k s) s))

end Sys2Proof.Machine
end

