-- ==== Sys2Proof/Machine/SystemAccess.lean ====
section
/-! DEFINITION. The meanings of the four instructions (rules R80, R81, R85). -/

namespace Sys2Proof.Machine

/-- A32 `MRC<c> p15, 0, <Rt>, c2, c0, 3` (rules R80, R85). -/
def execMrcA32 (c : Cond) (t : RegNum) (s : State) : Outcome :=
  withRt .a32 t fun k => underCondition c (mrcBody .a32 c k) s

/-- A32 `MCR<c> p15, 0, <Rt>, c2, c0, 3` (rules R81, R85). -/
def execMcrA32 (c : Cond) (t : RegNum) (s : State) : Outcome :=
  withRt .a32 t fun k => underCondition c (mcrBody .a32 c k) s

/-- T32 `MRC p15, 0, <Rt>, c2, c0, 3`, under the condition of its IT block (rules R63, R80, R85). A trap records that condition
(DESIGN CHOICE, log entry 25). -/
def execMrcT32 (t : RegNum) (s : State) : Outcome :=
  withRt .t32 t fun k => underCondition (t32Cond s.ctx) (mrcBody .t32 (t32Cond s.ctx) k) s

/-- T32 `MCR p15, 0, <Rt>, c2, c0, 3`, under the condition of its IT block (rules R63, R81, R85). A trap records that condition
(DESIGN CHOICE, log entry 25). -/
def execMcrT32 (t : RegNum) (s : State) : Outcome :=
  withRt .t32 t fun k => underCondition (t32Cond s.ctx) (mcrBody .t32 (t32Cond s.ctx) k) s

end Sys2Proof.Machine
end

