-- ==== Sys2Proof/Machine/Walk.lean ====
section
/-! DEFINITION. What the register makes of a translation (rules R41 to R44, R49, R51, R126). The walk algorithm, the
descriptor formats and the permission check are outside the spec. -/

namespace Sys2Proof.Machine

/-- `HierBits` (rule R42): the hierarchical bits of one Table descriptor as the hardware takes them. -/
def hierBits (n : Ttbr) (e : Word) (d : HierBits) : HierBits :=
  if effHpd n e then { apTable := 0, xnTable := false, pxnTable := false } else d

/-- `HwMayUse` (rule R43). -/
def hwMayUse (g : Config) (n : Ttbr) (b : HwBit) (e : Word) : Bool := effHwu g n b e

/-- The copy that governs a translation of the PL1&0 regime, stage 1 (rule R41, decision D5). -/
def walkBank (g : Config) (c : Ctx) (q : Security) : Bank :=
  if e3a32 g c then (match q with | .secure => .secure | .nonsecure => .nonsecure) else .plain

/-- The bits of the entry that the hardware may use, each with the code of its use (rule R43, decision D19). -/
def hwUses (g : Config) (q : WalkRequest) (e : Word) : List (HwBit × Nat) :=
  (HwBit.all.filter fun b => hwMayUse g q.ttbr b e).map fun b =>
    (b, Config.hwuUse q.ttbr.num b.pos (q.entry.getLsbD b.pos))

/-- What a translation becomes when the hardware acts on the `Eff` word `e` of copy `b` (rules R42, R43, R44). -/
def walkResult (g : Config) (b : Bank) (q : WalkRequest) (e : Word) : WalkResult :=
  { bank := some b, eff := e, hier := q.tables.map (hierBits q.ttbr e), uses := hwUses g q e }

/-- A translation of another stage or regime: the register has no part in it (rule R41). -/
def walkUntouched (q : WalkRequest) : WalkResult := { bank := none, eff := 0#32, hier := q.tables, uses := [] }

/-- One of several views, by a free choice (decisions D13, D14). -/
def pickView (vs : List View) (d : View) (k : Nat) : View :=
  vs.getD (Config.walkChoice k % vs.length) d

/-- A translation that may act on any view of a list (rules R41 to R44). -/
def translateWith (q : WalkRequest) (b : Bank) (vs : List View) (s : State) : State :=
  match q.regime with
  | .other => { s with lastWalk := some (walkUntouched q) }
  | .pl10Stage1 =>
    { s with
      lastWalk := some (walkResult s.cfg b q (viewEff s.cfg (pickView vs (currentView s b) s.draws) s.draws))
      draws := s.draws + 1 }

/-- The views a walk may use (rule R49). -/
def walkViews (s : State) (b : Bank) : List View := (s.cell b).views (active s.cfg s.ctx b)

/-- The views a translation that may be served from a TLB may use (rules R51, R126). -/
def tlbViews (s : State) (b : Bank) : List View := walkViews s b ++ (s.cell b).cached

/-- The walker performs a walk. -/
def doWalk (q : WalkRequest) (s : State) : State :=
  let b := walkBank s.cfg s.ctx q.security
  translateWith q b (walkViews s b) s

/-- A translation that may be served from a TLB: by any view that the cell governing it now keeps. A reset that changes
which cell governs Secure translations hands the older cell's views on to the newer (`resetWith`, log entry 24). -/
def doTranslate (q : WalkRequest) (s : State) : State :=
  let b := walkBank s.cfg s.ctx q.security
  translateWith q b (tlbViews s b) s

end Sys2Proof.Machine
end

