-- ==== Sys2Proof/Machine/Environment.lean ====
section
/-! DEFINITION. The moves of the environment, of the walker and of reset (rules R13, R31 to R33, R49, R120 to
R122, decisions D3, D4, D13, D14, D21, D26). -/

namespace Sys2Proof.Machine

/-- The name the one cell of TTBCR2 and TTBCR2_NS is reached by (rule R12, decision D4). -/
def nBank (g : Config) (c : Ctx) : Bank := if e3a32 g c then .nonsecure else .plain

/-- A cell when `Active` of its copy may change: what a walk could use, a TLB may hold (rule R126). -/
def Cell.onActive (old new : Bool) (k : Cell) : Cell := if old = new then k else k.retire old

/-- The environment changes the context inputs (rule R31). EL3's Execution state changes only at reset (the premise of
decision D4): anything else is refused. DESIGN CHOICE (log entry 23): the general registers are one set, kept through
every change of level or mode; the spec does not say which of R0 to R14 (R34) a change would replace. DESIGN CHOICE (log entry 26): no context change, a change of `ctx.el` included, is by itself
a context synchronization event (R125, decision D29): it leaves the older contents open to walks, and `contextSync` closes them. -/
def setContext (c : Ctx) (s : State) : Outcome :=
  if e3a32 s.cfg c = e3a32 s.cfg s.ctx then
    let n := nBank s.cfg s.ctx
    .next { s with
      ctx := c
      srN := s.srN.onActive (active s.cfg s.ctx n) (active s.cfg c n)
      srS := s.srS.onActive (active s.cfg s.ctx .secure) (active s.cfg c .secure) }
  else .refused .el3StateChange

/-- The environment writes TCR_EL1 (rule R13, decision D21): bits [63:32] go to the cell of TTBCR2 and TTBCR2_NS. There is
no storage while the register is absent (R10). -/
def writeTcr (v : DoubleWord) (s : State) : State :=
  if present s.cfg then writeSR (nBank s.cfg s.ctx) (v.extractLsb' 32 32) s else s

/-- The environment reads TCR_EL1[63:32] (rule R13, decision D21). -/
def readTcr (s : State) : State :=
  if present s.cfg then
    { afterReadSR (nBank s.cfg s.ctx) s with lastTcr := some (readSR (nBank s.cfg s.ctx) s) }
  else s

/-- A reset of any kind (rules R33, R120, R121): every copy UNKNOWN; what the spec does not reset comes from the
enclosing PE (R122). Where the reset changes the cell that governs Secure translations, a TLB may still serve them with
the views of the cell that governed them before (R51, R126; DESIGN CHOICE, log entry 24). -/
def resetWith (r : ResetInputs) (s : State) : State :=
  let n := s.srN.reset (active s.cfg s.ctx (nBank s.cfg s.ctx))
  let z := s.srS.reset (active s.cfg s.ctx .secure)
  { s with
    ctx := r.ctx
    x := r.x
    pc := r.pc
    srN := if e3a32 s.cfg s.ctx && !e3a32 s.cfg r.ctx then Cell.share z n else n
    srS := if !e3a32 s.cfg s.ctx && e3a32 s.cfg r.ctx then Cell.share n z else z }

/-- A context synchronization event (rules R49, R125). -/
def contextSync (s : State) : State :=
  { s with
    srN := s.srN.sync (active s.cfg s.ctx (nBank s.cfg s.ctx))
    srS := s.srS.sync (active s.cfg s.ctx .secure) }

/-- The environment invalidates the TLB and synchronises (decision D14). -/
def tlbInvalidateSync (s : State) : State :=
  { s with srN := s.srN.invalidate, srS := s.srS.invalidate }

/-- One move of an agent other than the PE. -/
def applyMove (m : Move) (s : State) : Outcome :=
  match m with
  | .setContext c => setContext c s
  | .writeTcr v => .next (writeTcr v s)
  | .readTcr => .next (readTcr s)
  | .reset _ r => .next (resetWith r s)
  | .walk q => .next (doWalk q s)
  | .translate q => .next (doTranslate q s)
  | .contextSync => .next (contextSync s)
  | .tlbInvalidateSync => .next (tlbInvalidateSync s)

end Sys2Proof.Machine
end

