-- ==== Sys2Proof/Machine/Step.lean ====
section
/-! DEFINITION. One step of the machine: the agent whose turn it is moves (00_scope.md section 7, decision D33). -/

namespace Sys2Proof.Machine

/-- The PE fetches and executes its next instruction. -/
def peStep (s : State) : Host.Outcome State Fault Refusal :=
  match fetchInstr s with
  | .instr i => exec i s
  | .fault f => .fault f
  | .refused r => .refused r

/-- One step: the first turn of the schedule, or the PE's if the schedule is empty. -/
def step (s : State) : Host.Outcome State Fault Refusal :=
  match s.schedule with
  | [] => peStep s
  | .pe :: rest => peStep { s with schedule := rest }
  | .env m :: rest => applyMove m { s with schedule := rest }

/-- The state in which the very next step fetches and runs the instruction of a table word. -/
def State.withFetchWord (s : State) (nbits w : Nat) : State := placeTableWord s nbits w

end Sys2Proof.Machine
end

