-- ==== Sys2Proof/Safety.lean ====
section
/-! DEFINITION. The terms claims are stated in: which accesses the spec lets through (rules R109, R111, as tables, not
as the pseudocode), the invariant of the state, and outcomes compared up to a change of the state. -/

namespace Sys2Proof.Machine

/-! ## Which accesses go through -/

/-- The condition an instruction is under (rules R63, R85). -/
def condOf (c : Ctx) : Instr → Cond
  | .mrcA32 cond _ => cond
  | .mcrA32 cond _ => cond
  | .mrcT32 _ => t32Cond c
  | .mcrT32 _ => t32Cond c

/-- An EL2 using AArch64 that can trap EL1 (rule R111). -/
def a64El2Over (g : Config) (c : Ctx) : Bool :=
  c.el == .el1 && c.el2Enabled && g.aa64EL2 && !c.el2UsingAArch32

/-- An EL2 using AArch32 that can trap EL1 (rule R111). -/
def a32El2Over (g : Config) (c : Ctx) : Bool :=
  c.el == .el1 && c.el2Enabled && g.aa32EL2 && c.el2UsingAArch32

/-- Whether EL2 traps a read (rule R111: T2 and TRVM). -/
def readTrapped (g : Config) (c : Ctx) : Bool :=
  (a64El2Over g c && (c.hstrEL2T2 || c.hcrEL2Trvm)) || (a32El2Over g c && (c.hstrT2 || c.hcrTrvm))

/-- Whether EL2 traps a write (rule R111: T2 and TVM). -/
def writeTrapped (g : Config) (c : Ctx) : Bool :=
  (a64El2Over g c && (c.hstrEL2T2 || c.hcrEL2Tvm)) || (a32El2Over g c && (c.hstrT2 || c.hcrTvm))

/-- Whether the signals lock a Secure write at EL3 (rule R109). -/
def secureWriteLocked (c : Ctx) : Bool :=
  c.el == .el3 && !c.scrNS && (c.cp15sdisable == .high || c.cp15sdisable2 == .high)

/-- Whether a read raises nothing (rule R109). -/
def readAllowed (g : Config) (c : Ctx) : Bool := present g && c.el != .el0 && !readTrapped g c

/-- Whether a write raises nothing (rule R109). -/
def writeAllowed (g : Config) (c : Ctx) : Bool :=
  present g && c.el != .el0 && !writeTrapped g c && !secureWriteLocked c

/-- Whether an instruction's access raises nothing (rule R109). -/
def accessAllowed (g : Config) (c : Ctx) (i : Instr) : Bool :=
  if i.isRead then readAllowed g c else writeAllowed g c

/-! ## Outcomes -/

/-- An outcome with its next state, if it has one, changed. -/
def mapNext (f : State → State) : Outcome → Outcome
  | .next s => .next (f s)
  | .fault r => .fault r
  | .refused r => .refused r

/-! ## The turn of a step -/

/-- Whether the step from a state is a move of another agent, and which. -/
def moveOf (s : State) : Option Move :=
  match s.schedule with
  | .env m :: _ => some m
  | _ => none

/-- The instruction that the PE executes in the step from a state, if the turn is the PE's and there is one. -/
def instrOf (s : State) : Option Instr :=
  match s.schedule with
  | .env _ :: _ => none
  | _ => match fetchInstr s with
    | .instr i => some i
    | _ => none

/-- Whether the step from a state is a reset. -/
def isReset (s : State) : Bool :=
  match moveOf s with
  | some (.reset _ _) => true
  | _ => false

/-! ## The invariant -/

/-- A content without a 1 where no bit holds state (rule R27). -/
def Content.masked (g : Config) : Content → Bool
  | .unknown => true
  | .known v => v &&& ~~~(writeMask g) == 0#32

/-- A cell whose contents, new and old, are masked, and whose lists have no repeats. -/
def Cell.ok (g : Config) (k : Cell) : Prop :=
  k.content.masked g = true ∧ (∀ c ∈ k.unsynced, Content.masked g c = true)
    ∧ (∀ v ∈ k.cached, Content.masked g v.content = true) ∧ k.unsynced.Nodup ∧ k.cached.Nodup

/-- The invariant of the machine: memory is canonical, and every bit of the register that holds no state is 0. -/
def State.Inv (s : State) : Prop :=
  Memory.wf s.mem = true ∧ s.srN.ok s.cfg ∧ s.srS.ok s.cfg

end Sys2Proof.Machine
end

