-- ==== Sys2Proof/Certificates/Slice0/Obligations.lean ====
section
/-! DEFINITION. The statements for the provers. Each docstring names the rule or the section of spec/ that the statement
comes from. Every statement holds for every implementation: the features and RES0_STORAGE_MASK are fields of the state
it quantifies over. -/

open Sys2Proof Sys2Proof.Machine

/-! ## Encoding and decoding (30_encoding.md) -/

/-- Vectors ENC-4, ENC-19, ENC-31, ENC-38, ENC-40 and ENC-48 of 95_test_vectors.md, as bytes in memory (the layouts and the byte
order are the spec's general knowledge: log entries 15, 11). -/
def Obligations.SpecWordsDecode : Prop :=
  decode .a32 [0x70, 0x3F, 0x12, 0xEE] = (.instr (.mrcA32 .al 3), []) ∧
  decode .a32 [0x70, 0x3F, 0x02, 0xEE] = (.instr (.mcrA32 .al 3), []) ∧
  decode .a32 [0x70, 0x2F, 0x12, 0x0E] = (.instr (.mrcA32 .eq 2), []) ∧
  decode .t32 [0x12, 0xEE, 0x70, 0x7F] = (.instr (.mrcT32 7), []) ∧
  decode .t32 [0x02, 0xEE, 0x70, 0xCF] = (.instr (.mcrT32 12), []) ∧
  decode .a32 [0x70, 0x0F, 0x12, 0xFE] = (.reject .condFifteen, [])

/-- 30_encoding.md sections 1 and 2: every well-formed instruction, with every operand, is what its bytes decode to, and the bytes
after it are left. -/
def Obligations.DecodeOfEncodedBytes : Prop :=
  ∀ (i : Instr) (rest : List Byte), i.wf = true →
    decode i.iset (encodeBytes i ++ rest) = (.instr i, rest)

/-- 30_encoding.md sections 1 and 2: a word that decodes is the encoding of the well-formed instruction it decodes to, so that
no two words mean one instruction. -/
def Obligations.EncodeOfDecodedWord : Prop :=
  ∀ (set : ISet) (w : Word) (i : Instr), decodeWord set w = .instr i →
    i.wf = true ∧ i.iset = set ∧ encode i = w

/-- The four rows of the opcode table (30_encoding.md section 4): the decoder accepts a word as a row's instruction exactly when
the word has the row's match under the row's mask and meets the row's extra condition. -/
def Obligations.DecodeFollowsOpcodeTable : Prop :=
  ∀ w : Word,
    ((∃ c t, decodeWord .a32 w = .instr (.mrcA32 c t)) ↔
      w &&& 0x0FFF0FFF#32 = 0x0E120F70#32 ∧ w >>> 28 ≠ 15#32 ∧ (w >>> 12) &&& 15#32 ≠ 15#32) ∧
    ((∃ c t, decodeWord .a32 w = .instr (.mcrA32 c t)) ↔
      w &&& 0x0FFF0FFF#32 = 0x0E020F70#32 ∧ w >>> 28 ≠ 15#32 ∧ (w >>> 12) &&& 15#32 ≠ 15#32) ∧
    ((∃ t, decodeWord .t32 w = .instr (.mrcT32 t)) ↔
      w &&& 0xFFFF0FFF#32 = 0xEE120F70#32 ∧ (w >>> 12) &&& 15#32 ≠ 15#32 ∧ (w >>> 12) &&& 15#32 ≠ 13#32) ∧
    ((∃ t, decodeWord .t32 w = .instr (.mcrT32 t)) ↔
      w &&& 0xFFFF0FFF#32 = 0xEE020F70#32 ∧ (w >>> 12) &&& 15#32 ≠ 15#32 ∧ (w >>> 12) &&& 15#32 ≠ 13#32)

/-- 30_encoding.md section 3 (the spec's decisions D7, D8): a word whose selection values differ from those of TTBCR2 in any bit
is refused, and an A32 word with condition 0b1111, a word with Rt 15, and a T32 word with Rt 13. -/
def Obligations.NeighbouringWordsRefused : Prop :=
  ∀ (set : ISet) (w : Word),
    (w.extractLsb' 8 4 ≠ 0b1111#4 ∨ w.extractLsb' 21 3 ≠ 0b000#3 ∨ w.extractLsb' 16 4 ≠ 0b0010#4 ∨
      w.extractLsb' 0 4 ≠ 0b0000#4 ∨ w.extractLsb' 5 3 ≠ 0b011#3 ∨
      (set = .a32 ∧ w.extractLsb' 28 4 = 15#4) ∨ w.extractLsb' 12 4 = 15#4 ∨
      (set = .t32 ∧ w.extractLsb' 12 4 = 13#4)) →
    ∃ r, decodeWord set w = .reject r

/-- 30_encoding.md section 3 (the spec's decision D8): the instruction itself, with an operand that no word has, is refused too. -/
def Obligations.IllFormedOperandRefused : Prop :=
  ∀ (i : Instr) (s : State), i.wf = false → exec i s = .refused (.rtRefused i.rt)

/-! ## A step -/

/-- 00_scope.md section 7 and decision D33: when it is the PE's turn, by the schedule or because the schedule is empty, and the
four bytes at the pc decode in the instruction set state of the PE, the step is the instruction's. Nothing is added
around it. -/
def Obligations.StepRunsDecodedInstruction : Prop :=
  ∀ (s : State) (set : ISet) (bs : List Byte) (i : Instr),
    s.ctx.exec = .aarch32 set → fetchBytes s.pc s.mem = some bs → (decode set bs).1 = .instr i →
    (s.schedule = [] → step s = exec i s) ∧
    (∀ rest, s.schedule = .pe :: rest → step s = exec i { s with schedule := rest })

/-- Decisions D7, D27 and D33: with the PE's turn, by the schedule or because the schedule is empty, the step ends the run where no instruction is supplied, and refuses the bytes of
no instruction of this spec and AArch64 state. -/
def Obligations.StepStopsWithoutInstruction : Prop :=
  ∀ s : State, (s.schedule = [] ∨ ∃ rest, s.schedule = .pe :: rest) →
    (s.ctx.exec = .aarch64 → step s = .refused .aarch64State) ∧
    (∀ set, s.ctx.exec = .aarch32 set →
      (fetchBytes s.pc s.mem = none → step s = .fault .noInstruction) ∧
      (∀ bs r, fetchBytes s.pc s.mem = some bs → (decode set bs).1 = .reject r →
        step s = .refused (.notOfThisSpec r)))

/-- The model's own interface (log entry 16): a table word that decodes is what the next step fetches and runs, from any state,
with the pc anywhere. -/
def Obligations.PlacedWordRunsNext : Prop :=
  ∀ (s : State) (w : Nat) (i : Instr), decodeTableWord 32 w = some i →
    ∃ u, s.withFetchWord 32 w = u ∧ step u = exec i u ∧ u.ctx.exec = .aarch32 i.iset ∧ u.schedule = [] ∧
      u.cfg = s.cfg ∧ u.x = s.x ∧ u.pc = s.pc ∧ u.srN = s.srN ∧ u.srS = s.srS ∧ u.draws = s.draws

/-! ## Completion, results and frames of the four instructions (40_sysreg_access.md) -/

/-- 40_sysreg_access.md sections 1 and 3: MRC, A32 and T32, completes wherever its condition passes, rule R109 lets a read through and
the premises of D20 hold; it puts the whole selected copy into x[t], or a fresh draw while the copy is UNKNOWN, moves the pc on by
4 and changes nothing else but the count of draws. -/
def Obligations.MrcCompletesWithSelectedCopy : Prop :=
  ∀ (s : State) (k : Fin 15), readAllowed s.cfg s.ctx = true → premises s.cfg s.ctx = true →
    ∃ t : State,
      t = { s with
            x := s.x.set k
              (match (s.cell (selectBank s.cfg s.ctx)).content with
                | .known v => v &&& writeMask s.cfg
                | .unknown => Config.unknownWord s.draws &&& writeMask s.cfg)
            pc := s.pc + 4#32
            draws := t.draws } ∧
      (t.draws = s.draws ∨
        (s.cell (selectBank s.cfg s.ctx)).content = .unknown ∧ t.draws = s.draws + 1) ∧
      (∀ (c : Cond) (r : RegNum), r.val = k.val → conditionPassed s.ctx c = true →
        exec (.mrcA32 c r) s = .next t) ∧
      (∀ r : RegNum, r.val = k.val → r ≠ 13 → conditionPassed s.ctx (s.ctx.itCond.getD .al) = true →
        exec (.mrcT32 r) s = .next t)

/-- 40_sysreg_access.md sections 2 and 3: MCR, A32 and T32, completes wherever its condition passes, rule R109 lets a write through
and the premises of D20 hold; the selected copy holds x[t] less the bits that hold no state, the pc moves on by 4, and
nothing else changes but what translation may still see of the copy's past: walks, the old content and what they could use of it before
(20_memory.md R49), and a TLB, exactly what translations could use before (20_memory.md R51). -/
def Obligations.McrCompletesWithWrittenCopy : Prop :=
  ∀ (s : State) (k : Fin 15), writeAllowed s.cfg s.ctx = true → premises s.cfg s.ctx = true →
    ∃ kell : Cell,
      kell.content = .known (s.x[k] &&& writeMask s.cfg) ∧
      (s.cell (selectBank s.cfg s.ctx)).content ∈ kell.unsynced ∧
      (∀ c, c ∈ kell.unsynced →
        c = (s.cell (selectBank s.cfg s.ctx)).content ∨ c ∈ (s.cell (selectBank s.cfg s.ctx)).unsynced) ∧
      (∀ v, v ∈ kell.cached ↔
        v ∈ (s.cell (selectBank s.cfg s.ctx)).views (active s.cfg s.ctx (selectBank s.cfg s.ctx)) ∨
          v ∈ (s.cell (selectBank s.cfg s.ctx)).cached) ∧
      (∀ (c : Cond) (r : RegNum), r.val = k.val → conditionPassed s.ctx c = true →
        exec (.mcrA32 c r) s =
          .next { (s.setCell (selectBank s.cfg s.ctx) kell) with pc := s.pc + 4#32 }) ∧
      (∀ r : RegNum, r.val = k.val → r ≠ 13 → conditionPassed s.ctx (s.ctx.itCond.getD .al) = true →
        exec (.mcrT32 r) s =
          .next { (s.setCell (selectBank s.cfg s.ctx) kell) with pc := s.pc + 4#32 })

/-- 40_sysreg_access.md section 3 (R86) and 20_memory.md section 1: the frame of MRC, A32 and T32, whether or not its condition
passes. The pc and the count of draws may change; of the registers only x[t] may. -/
def Obligations.MrcFrame : Prop :=
  ∀ (i : Instr) (s t : State), i.isRead = true → exec i s = .next t →
    (∀ j : Fin 15, j.val ≠ i.rt.val → t.x[j] = s.x[j]) ∧
    t.srN = s.srN ∧ t.srS = s.srS ∧ t.ctx = s.ctx ∧ t.cfg = s.cfg ∧ t.schedule = s.schedule ∧
    t.lastWalk = s.lastWalk ∧ t.lastTcr = s.lastTcr ∧
    (∀ a, Memory.read a t.mem = Memory.read a s.mem)

/-- 40_sysreg_access.md section 3 (R86) and 20_memory.md section 1: the frame of MCR, A32 and T32, whether or not its condition
passes. The pc and the count of draws may change; of the register only the selected copy's cell may. -/
def Obligations.McrFrame : Prop :=
  ∀ (i : Instr) (s t : State), i.isRead = false → exec i s = .next t →
    t.x = s.x ∧
    (selectBank s.cfg s.ctx = .secure → t.srN = s.srN) ∧
    (selectBank s.cfg s.ctx ≠ .secure → t.srS = s.srS) ∧
    t.ctx = s.ctx ∧ t.cfg = s.cfg ∧ t.schedule = s.schedule ∧
    t.lastWalk = s.lastWalk ∧ t.lastTcr = s.lastTcr ∧
    (∀ a, Memory.read a t.mem = Memory.read a s.mem)

/-- 40_sysreg_access.md section 3, the table of instance selection (R82, which the spec derives): which copy an access reaches, and
that within the premises of D20 the copy reached exists. -/
def Obligations.SelectedCopyFollowsTable : Prop :=
  ∀ (g : Config) (c : Ctx),
    ((c.el = .el1 ∨ c.el = .el2) → g.haveEL3 = true → g.aa32EL3 = true → c.el3UsingAArch32 = true →
      selectBank g c = .nonsecure) ∧
    ((c.el = .el1 ∨ c.el = .el2) → (g.haveEL3 = false ∨ g.aa32EL3 = false ∨ c.el3UsingAArch32 = false) →
      selectBank g c = .plain) ∧
    (c.el = .el3 → c.scrNS = false → selectBank g c = .secure) ∧
    (c.el = .el3 → c.scrNS = true → selectBank g c = .nonsecure) ∧
    (present g = true → premises g c = true → bankExists g (selectBank g c) = true)

/-- 60_exceptions.md section 5 (R109, R111) and 40_sysreg_access.md R82: with its condition passed, a well-formed access answers a
next state exactly where the table of rights lets it through and the premises of D20 hold; it is refused exactly where only
the premises fail; in every other case it raises an outcome. -/
def Obligations.AccessRightsExactly : Prop :=
  ∀ (i : Instr) (s : State), i.wf = true → conditionPassed s.ctx (condOf s.ctx i) = true →
    ((∃ t, exec i s = .next t) ↔ accessAllowed s.cfg s.ctx i = true ∧ premises s.cfg s.ctx = true) ∧
    (exec i s = .refused .contextOutsidePremises ↔
      accessAllowed s.cfg s.ctx i = true ∧ premises s.cfg s.ctx = false) ∧
    ((∃ f, exec i s = .fault f) ↔ accessAllowed s.cfg s.ctx i = false)

/-- 40_sysreg_access.md section 3 (R85, the spec's decision D9): an instruction that fails its condition check only moves the pc on
(with or without a draw), or raises what it would have raised with the condition passed. -/
def Obligations.FailedConditionIsNoOpOrTheRaise : Prop :=
  ∀ (i : Instr) (s : State), i.wf = true → conditionPassed s.ctx (condOf s.ctx i) = false →
    (∃ d, exec i s = .next { s with pc := s.pc + 4#32, draws := d } ∧ s.draws ≤ d ∧ d ≤ s.draws + 1) ∨
    (∃ f, exec i s = .fault f ∧
      exec i { s with ctx := { s.ctx with passing := condOf s.ctx i :: s.ctx.passing } } = .fault f)

/-- Program P1 of 95_test_vectors.md, for every implementation and context: an MCR and then an MRC of the same copy return the
written value less the bits that hold no state. -/
def Obligations.ReadAfterWriteReturnsWritten : Prop :=
  ∀ (s : State) (i j : Instr) (a k : Fin 15),
    i.isRead = false → i.wf = true → i.rt.val = a.val → conditionPassed s.ctx (condOf s.ctx i) = true →
    j.isRead = true → j.wf = true → j.rt.val = k.val → conditionPassed s.ctx (condOf s.ctx j) = true →
    writeAllowed s.cfg s.ctx = true → readAllowed s.cfg s.ctx = true → premises s.cfg s.ctx = true →
    ∃ t u, exec i s = .next t ∧ exec j t = .next u ∧
      u.x[k] = s.x[a] &&& writeMask s.cfg ∧ u.pc = s.pc + 8#32 ∧ (∀ n : Fin 15, n ≠ k → u.x[n] = s.x[n])

/-- Corner case (g) of 40_sysreg_access.md section 2: writing the value just read leaves what a read returns unchanged. -/
def Obligations.WritingBackKeepsRegister : Prop :=
  ∀ (s : State) (v : Word) (i j : Instr),
    (s.cell (selectBank s.cfg s.ctx)).content = .known v →
    i.isRead = false → i.wf = true → conditionPassed s.ctx (condOf s.ctx i) = true →
    j.isRead = true → j.wf = true → conditionPassed s.ctx (condOf s.ctx j) = true → i.rt = j.rt →
    writeAllowed s.cfg s.ctx = true → readAllowed s.cfg s.ctx = true → premises s.cfg s.ctx = true →
    ∃ t u, exec j s = .next t ∧ exec i t = .next u ∧
      readSR (selectBank s.cfg s.ctx) u = readSR (selectBank s.cfg s.ctx) s ∧ u.x = t.x

/-- 10_state.md R33 with the spec's decision D2 (vector RST-2): while a copy is UNKNOWN, two reads in a row each return a draw of
their own, less the bits that hold no state, and the copy stays UNKNOWN. The draws are free values: nothing relates them. -/
def Obligations.UnknownCopyReadsAreFresh : Prop :=
  ∀ (s : State) (i j : Instr) (a k : Fin 15), a ≠ k →
    i.isRead = true → i.wf = true → i.rt.val = a.val → conditionPassed s.ctx (condOf s.ctx i) = true →
    j.isRead = true → j.wf = true → j.rt.val = k.val → conditionPassed s.ctx (condOf s.ctx j) = true →
    (s.cell (selectBank s.cfg s.ctx)).content = .unknown →
    readAllowed s.cfg s.ctx = true → premises s.cfg s.ctx = true →
    ∃ t u, exec i s = .next t ∧ exec j t = .next u ∧
      u.x[a] = Config.unknownWord s.draws &&& writeMask s.cfg ∧
      u.x[k] = Config.unknownWord (s.draws + 1) &&& writeMask s.cfg ∧
      (u.cell (selectBank s.cfg s.ctx)).content = .unknown

/-- 10_state.md R28, "for all purposes other than reading or writing the register" (corner cases (a) of R80 and R81): the TTBCR bits
of no bank change what a read returns, what a write stores, or whether either completes. -/
def Obligations.AccessIgnoresTtbcrBits : Prop :=
  ∀ (i : Instr) (s : State) (p q r : Ttbcr),
    let s' := { s with ctx := { s.ctx with ttbcr := p, ttbcrS := q, ttbcrNS := r } }
    (∀ f, exec i s = .fault f ↔ exec i s' = .fault f) ∧
    (∀ f, exec i s = .refused f ↔ exec i s' = .refused f) ∧
    (∀ t, exec i s = .next t → ∃ t', exec i s' = .next t' ∧ t'.x = t.x ∧ t'.pc = t.pc ∧ t'.draws = t.draws ∧
      t'.srN.content = t.srN.content ∧ t'.srS.content = t.srS.content)

/-! ## The outcomes raised (60_exceptions.md) -/

/-- R100: the four cases of `Undefined`, and no other case. -/
def Obligations.UndefinedInExactlyTheseCases : Prop :=
  ∀ (i : Instr) (s : State), i.wf = true → conditionPassed s.ctx (condOf s.ctx i) = true →
    (exec i s = .fault (.undefined .absent) ↔ ¬(s.cfg.aa32EL1 = true ∧ s.cfg.aa32HPD = true)) ∧
    (exec i s = .fault (.undefined .el0) ↔ present s.cfg = true ∧ s.ctx.el = .el0) ∧
    (exec i s = .fault (.undefined .cp15sdisable) ↔
      i.isRead = false ∧ present s.cfg = true ∧ s.ctx.el = .el3 ∧ s.ctx.scrNS = false ∧
        s.ctx.cp15sdisable = .high) ∧
    (exec i s = .fault (.undefined .cp15sdisable2) ↔
      i.isRead = false ∧ present s.cfg = true ∧ s.ctx.el = .el3 ∧ s.ctx.scrNS = false ∧
        s.ctx.cp15sdisable = .low ∧ s.ctx.cp15sdisable2 = .high)

/-- R101: the cases A1, A2 and A3 of a trap to an EL2 using AArch64, and no other case. -/
def Obligations.TrapToA64El2InExactlyTheseCases : Prop :=
  ∀ (i : Instr) (s : State), i.wf = true → conditionPassed s.ctx (condOf s.ctx i) = true →
    let el2Traps := present s.cfg = true ∧ s.ctx.el = .el1 ∧ s.ctx.el2Enabled = true ∧ s.cfg.aa64EL2 = true ∧
      s.ctx.el2UsingAArch32 = false
    ((∃ iss, exec i s = .fault (.trapToEL2A64 .t2 0x03 iss)) ↔ el2Traps ∧ s.ctx.hstrEL2T2 = true) ∧
    ((∃ iss, exec i s = .fault (.trapToEL2A64 .trvm 0x03 iss)) ↔
      el2Traps ∧ s.ctx.hstrEL2T2 = false ∧ i.isRead = true ∧ s.ctx.hcrEL2Trvm = true) ∧
    ((∃ iss, exec i s = .fault (.trapToEL2A64 .tvm 0x03 iss)) ↔
      el2Traps ∧ s.ctx.hstrEL2T2 = false ∧ i.isRead = false ∧ s.ctx.hcrEL2Tvm = true) ∧
    (∀ why ec iss, exec i s = .fault (.trapToEL2A64 why ec iss) → ec = 0x03)

/-- R102: the cases H1, H2 and H3 of a trap to Hyp mode, and no other case. -/
def Obligations.HypTrapInExactlyTheseCases : Prop :=
  ∀ (i : Instr) (s : State), i.wf = true → conditionPassed s.ctx (condOf s.ctx i) = true →
    let el2Traps := present s.cfg = true ∧ s.ctx.el = .el1 ∧ s.ctx.el2Enabled = true ∧ s.cfg.aa32EL2 = true ∧
      s.ctx.el2UsingAArch32 = true
    ((∃ iss, exec i s = .fault (.hypTrap .t2 0x03 iss)) ↔ el2Traps ∧ s.ctx.hstrT2 = true) ∧
    ((∃ iss, exec i s = .fault (.hypTrap .trvm 0x03 iss)) ↔
      el2Traps ∧ s.ctx.hstrT2 = false ∧ i.isRead = true ∧ s.ctx.hcrTrvm = true) ∧
    ((∃ iss, exec i s = .fault (.hypTrap .tvm 0x03 iss)) ↔
      el2Traps ∧ s.ctx.hstrT2 = false ∧ i.isRead = false ∧ s.ctx.hcrTvm = true) ∧
    (∀ why ec iss, exec i s = .fault (.hypTrap why ec iss) → ec = 0x03)

/-- R103, over every step of the machine: whatever traps to EL2 carries the code 0x03. -/
def Obligations.EveryTrapCarriesCodeThree : Prop :=
  ∀ (s : State) (why : TrapCause) (ec : Nat) (iss : BitVec 25),
    (step s = .fault (.trapToEL2A64 why ec iss) → ec = 0x03) ∧
    (step s = .fault (.hypTrap why ec iss) → ec = 0x03)

/-- 60_exceptions.md R104 (the spec's general knowledge; vectors SYN-1 to SYN-5): in an implementation that lays the syndrome detail
out that way, a trapped access records its direction, its condition and its register number. That a T32 access records CV = 1 and the condition of
its IT block, AL outside one, is the model's choice (log entry 25). -/
def Obligations.FamilySyndromeDetail : Prop :=
  ∀ (i : Instr) (s : State) (why : TrapCause) (ec : Nat) (iss : BitVec 25), s.cfg.issFamily = true →
    (exec i s = .fault (.trapToEL2A64 why ec iss) ∨ exec i s = .fault (.hypTrap why ec iss)) →
    iss = 0x1060800#25 ||| ((condOf s.ctx i).bits.setWidth 25 <<< 20) |||
      (BitVec.ofNat 25 i.rt.val <<< 5) ||| (if i.isRead then 1#25 else 0#25)

/-! ## Security states and Exception levels (60_exceptions.md section 5) -/

/-- 60_exceptions.md section 5 (R110): an instruction at EL0, EL1 or EL2 neither depends on TTBCR2_S nor changes it. Two runs that differ
only in its cell, contents and past alike, have the same outcome but for that cell. -/
def Obligations.SecureCopyIsolatedBelowEl3 : Prop :=
  ∀ (i : Instr) (s : State) (k : Cell), s.ctx.el ≠ .el3 →
    exec i { s with srS := k } = mapNext (fun t => { t with srS := k }) (exec i s) ∧
    (∀ t, exec i s = .next t → t.srS = s.srS)

/-! ## Fields and effective values (10_state.md sections 2 and 3) -/

/-- 10_state.md section 2 (R14, R27): no two fields share a bit, FIELD_MASK holds exactly the bits of the fields that exist, and a bit
holds state exactly if it is one of them or a RES0 bit that RES0_STORAGE_MASK names. -/
def Obligations.MasksAreTheFields : Prop :=
  (∀ f f' : Field, f.pos = f'.pos → f = f') ∧
  (∀ (g : Config) (n : Nat), (fieldMask g).getLsbD n = true ↔ ∃ f : Field, f.existsIn g = true ∧ f.pos = n) ∧
  (∀ (g : Config) (n : Nat), (writeMask g).getLsbD n = true ↔
    (fieldMask g).getLsbD n = true ∨ (res0Pos g).getLsbD n = true ∧ g.res0Storage.getLsbD n = true)

/-- 10_state.md R28 with decision D6: the `Eff` word of each copy is the fields of what the copy shows where the register is
present and the bits of the TTBCR of the same bank are {1, 1}, and zero otherwise. -/
def Obligations.EffIsFieldsWhereActive : Prop :=
  ∀ (s : State) (b : Bank) (t : Ttbcr),
    t = (match b with | .plain => s.ctx.ttbcr | .secure => s.ctx.ttbcrS | .nonsecure => s.ctx.ttbcrNS) →
    ((present s.cfg = true ∧ t.eae = true ∧ t.t2e = true) →
      eff s b = readSR b s &&& (if s.cfg.hpds2 then 0x0007FE00#32 else 0x00000600#32)) ∧
    (¬(present s.cfg = true ∧ t.eae = true ∧ t.t2e = true) → eff s b = 0#32)

/-- R29: the effective HPD bits, in terms of `Active` and of the stored bits that a read shows. -/
def Obligations.EffHpdExactly : Prop :=
  ∀ (s : State) (b : Bank),
    (effHpd .ttbr0 (eff s b) = (eff s b).getLsbD 9) ∧
    (effHpd .ttbr1 (eff s b) = (eff s b).getLsbD 10) ∧
    (effHpd .ttbr0 (eff s b) = true ↔ active s.cfg s.ctx b = true ∧ (readSR b s).getLsbD 9 = true) ∧
    (effHpd .ttbr1 (eff s b) = true ↔ active s.cfg s.ctx b = true ∧ (readSR b s).getLsbD 10 = true)

/-- R30: the effective HWU bits: a stored HWU bit is effective only with FEAT_HPDS2, in an active register, with the HPD bit of its
own half. -/
def Obligations.EffHwuExactly : Prop :=
  ∀ (s : State) (b : Bank) (n : Ttbr) (h : HwBit),
    effHwu s.cfg n h (eff s b) = true ↔
      s.cfg.hpds2 = true ∧ active s.cfg s.ctx b = true ∧ (readSR b s).getLsbD (9 + n.num) = true ∧
        (readSR b s).getLsbD (11 + 4 * n.num + (h.pos - 59)) = true

/-! ## Translations (20_memory.md) -/

/-- 20_memory.md R42 with the spec's decision D30, for a walk and for a translation that may be served from a TLB: through TTBR<n>, every Table descriptor's three hierarchical fields are taken as
zero when HPD<n> of the word acted on is 1, and as the descriptor holds them when it is 0; no descriptor is lost. -/
def Obligations.WalkTakesHierarchicalBits : Prop :=
  ∀ (s t : State) (q : WalkRequest) (rest : List Turn),
    (s.schedule = .env (.walk q) :: rest ∨ s.schedule = .env (.translate q) :: rest) →
    q.regime = .pl10Stage1 → step s = .next t →
    ∃ r, t.lastWalk = some r ∧ r.hier.length = q.tables.length ∧
      (effHpd q.ttbr r.eff = false → r.hier = q.tables) ∧
      (effHpd q.ttbr r.eff = true → ∀ d ∈ r.hier, d.apTable = 0#2 ∧ d.xnTable = false ∧ d.pxnTable = false)

/-- 20_memory.md R43, for a walk and for a translation that may be served from a TLB: bit b of the entry can be used by hardware exactly when the effective HWU bit of the half and of that bit is 1, and
its use is then the parameter HwuUse (the spec's decision D19: a free value); a bit that cannot be used has no effect: two such moves whose entries differ only in such bits give the same result. -/
def Obligations.HardwareUsesOnlyPermittedBits : Prop :=
  ∀ (s t : State) (q : WalkRequest) (rest : List Turn) (move : WalkRequest → Move),
    (move = .walk ∨ move = .translate) → s.schedule = .env (move q) :: rest →
    q.regime = .pl10Stage1 → step s = .next t →
    ∃ r, t.lastWalk = some r ∧
      (∀ h u, (h, u) ∈ r.uses ↔ effHwu s.cfg q.ttbr h r.eff = true ∧
        u = Config.hwuUse q.ttbr.num h.pos (q.entry.getLsbD h.pos)) ∧
      (∀ e : BitVec 64,
        (∀ h, effHwu s.cfg q.ttbr h r.eff = true → e.getLsbD h.pos = q.entry.getLsbD h.pos) →
        ∃ t', step { s with schedule := .env (move { q with entry := e }) :: rest } = .next t' ∧
          t'.lastWalk = some r)

/-- 20_memory.md R49 (the spec's decision D13): a walk of the regime acts on the present content of the governing copy or on one it held
since the last context synchronization event, under the enable of now; and nothing but the record of the walk changes. Which copy
governs is the table of R41 (the spec's decision D5): with EL3 implemented and using AArch32, TTBCR2_S for a Secure and TTBCR2_NS for a
Non-secure translation; otherwise TTBCR2. The enable is that of the TTBCR of the same bank (decision D6). -/
def Obligations.WalkActsOnNewOrUnsyncedContent : Prop :=
  ∀ (s : State) (q : WalkRequest) (rest : List Turn), s.schedule = .env (.walk q) :: rest →
    q.regime = .pl10Stage1 →
    ∃ r c b, step s = .next { s with schedule := rest, lastWalk := some r, draws := s.draws + 1 } ∧
      r.bank = some b ∧ b = walkBank s.cfg s.ctx q.security ∧
      (s.cfg.haveEL3 = true → s.cfg.aa32EL3 = true → s.ctx.el3UsingAArch32 = true →
        (q.security = .secure → b = .secure) ∧ (q.security = .nonsecure → b = .nonsecure)) ∧
      ((s.cfg.haveEL3 = false ∨ s.cfg.aa32EL3 = false ∨ s.ctx.el3UsingAArch32 = false) → b = .plain) ∧
      (c = (s.cell b).content ∨ c ∈ (s.cell b).unsynced) ∧
      r.eff = (if active s.cfg s.ctx b = true
        then contentWord s.cfg c s.draws &&& fieldMask s.cfg else 0#32)

/-- 20_memory.md R51 and 70_reset_and_hazards.md R126 (the spec's decision D14): a translation that may be served from a TLB
acts on one of the views that the cell of the governing copy keeps, and on no other: what a walk could use now (the present content or one
held since the last context synchronization event, under the enable of now), or a view kept for a TLB, with its own content and enable.
A view kept for a TLB may stem from before a reset, which invalidates nothing (the model's choice: log entry 8), and then even from the
other copy; that a translation looks only in the cell that governs it now, to which such views are handed on, is the model's choice
(log entry 24). What a cell can come to keep is bounded by ViewsComeFromUsableOnes. Nothing but the record of the translation changes. -/
def Obligations.TranslationActsOnVisibleView : Prop :=
  ∀ (s : State) (q : WalkRequest) (rest : List Turn), s.schedule = .env (.translate q) :: rest →
    q.regime = .pl10Stage1 →
    ∃ r v b, step s = .next { s with schedule := rest, lastWalk := some r, draws := s.draws + 1 } ∧
      r.bank = some b ∧ b = walkBank s.cfg s.ctx q.security ∧
      (((v.content = (s.cell b).content ∨ v.content ∈ (s.cell b).unsynced) ∧ v.active = active s.cfg s.ctx b) ∨
        v ∈ (s.cell b).cached) ∧
      r.eff = (if present s.cfg = true ∧ v.active = true
        then contentWord s.cfg v.content s.draws &&& fieldMask s.cfg else 0#32)

/-- 20_memory.md R41 (derived there): the register has no effect on a translation of another stage or regime. -/
def Obligations.OtherRegimesUntouched : Prop :=
  ∀ (s : State) (q : WalkRequest) (rest : List Turn),
    (s.schedule = .env (.walk q) :: rest ∨ s.schedule = .env (.translate q) :: rest) → q.regime = .other →
    ∃ r, step s = .next { s with schedule := rest, lastWalk := some r } ∧ r.bank = none ∧ r.hier = q.tables ∧
      r.uses = []

/-- 20_memory.md R49 and 70_reset_and_hazards.md R125 (the spec's decision D13): after an MCR and a context synchronization event, every
walk governed by the written copy acts on the written value; and a read between the two already returns it (20_memory.md R48), wherever
a read is allowed and its condition passes. -/
def Obligations.SynchronisedWriteGovernsWalks : Prop :=
  ∀ (s : State) (i : Instr) (k : Fin 15) (q : WalkRequest) (rest : List Turn),
    i.isRead = false → i.wf = true → i.rt.val = k.val → conditionPassed s.ctx (condOf s.ctx i) = true →
    writeAllowed s.cfg s.ctx = true → premises s.cfg s.ctx = true →
    q.regime = .pl10Stage1 → walkBank s.cfg s.ctx q.security = selectBank s.cfg s.ctx →
    s.schedule = .env .contextSync :: .env (.walk q) :: rest →
    ∃ t t' u r, exec i s = .next t ∧ step t = .next t' ∧ step t' = .next u ∧ u.lastWalk = some r ∧
      r.eff = (if active s.cfg s.ctx (selectBank s.cfg s.ctx) = true then s.x[k] &&& fieldMask s.cfg else 0#32) ∧
      (∀ (j : Instr) (m : Fin 15), j.isRead = true → j.wf = true → j.rt.val = m.val →
        conditionPassed s.ctx (condOf s.ctx j) = true → readAllowed s.cfg s.ctx = true →
        ∃ w, exec j t = .next w ∧ w.x[m] = s.x[k] &&& writeMask s.cfg)

/-- 20_memory.md R51 and 70_reset_and_hazards.md R126 (the spec's decision D14): what a translation may use, of either cell, it may use
after any step of any agent, until the environment invalidates the TLB; and so may the translations of each Security state, whichever
cell governs them before and after. A change of TTBCR.{EAE, T2E} is such a step, and a reset, which invalidates nothing (the model's choice:
log entry 8) and hands the views on where it changes the governing cell (the model's choice: log entry 24). -/
def Obligations.StaleViewsLastUntilInvalidation : Prop :=
  ∀ (s t : State), step s = .next t → moveOf s ≠ some .tlbInvalidateSync →
    (∀ v, v ∈ s.srN.views (active s.cfg s.ctx (nBank s.cfg s.ctx)) ∨ v ∈ s.srN.cached →
      v ∈ t.srN.views (active t.cfg t.ctx (nBank t.cfg t.ctx)) ∨ v ∈ t.srN.cached) ∧
    (∀ v, v ∈ s.srS.views (active s.cfg s.ctx .secure) ∨ v ∈ s.srS.cached →
      v ∈ t.srS.views (active t.cfg t.ctx .secure) ∨ v ∈ t.srS.cached) ∧
    (∀ q v, v ∈ tlbViews s (walkBank s.cfg s.ctx q) → v ∈ tlbViews t (walkBank t.cfg t.ctx q))

/-- 20_memory.md R49 and R51 (the spec's decisions D13, D14): no step of any agent makes up an older content for walks or a view for a TLB. The
present content and the enable of now are not bounded here: a write, a reset and a change of TTBCR.{EAE, T2E} renew them. An older content that walks may use of a cell was its content or one of those before the
step; a view kept for a TLB was usable of the same cell before the step, under the enable of then, or, at a reset that changes the cell
governing Secure translations, of the other one (the model's choice: log entry 24). -/
def Obligations.ViewsComeFromUsableOnes : Prop :=
  ∀ s t : State, step s = .next t →
    (∀ c, c ∈ t.srN.unsynced → c = s.srN.content ∨ c ∈ s.srN.unsynced) ∧
    (∀ c, c ∈ t.srS.unsynced → c = s.srS.content ∨ c ∈ s.srS.unsynced) ∧
    (∀ v, v ∈ t.srN.cached →
      v ∈ s.srN.views (active s.cfg s.ctx (nBank s.cfg s.ctx)) ∨ v ∈ s.srN.cached ∨
        (isReset s = true ∧ e3a32 s.cfg s.ctx = true ∧ e3a32 t.cfg t.ctx = false ∧
          (v ∈ s.srS.views (active s.cfg s.ctx .secure) ∨ v ∈ s.srS.cached))) ∧
    (∀ v, v ∈ t.srS.cached →
      v ∈ s.srS.views (active s.cfg s.ctx .secure) ∨ v ∈ s.srS.cached ∨
        (isReset s = true ∧ e3a32 s.cfg s.ctx = false ∧ e3a32 t.cfg t.ctx = true ∧
          (v ∈ s.srN.views (active s.cfg s.ctx (nBank s.cfg s.ctx)) ∨ v ∈ s.srN.cached)))

/-- Decision D14: after the environment has invalidated the TLB and synchronised, a translation acts on the present content. -/
def Obligations.InvalidationClosesTheWindow : Prop :=
  ∀ (s : State) (q : WalkRequest) (rest : List Turn) (b : Bank),
    s.schedule = .env .tlbInvalidateSync :: .env (.translate q) :: rest → q.regime = .pl10Stage1 →
    b = walkBank s.cfg s.ctx q.security →
    ∃ t u r, step s = .next t ∧ step t = .next u ∧ u.lastWalk = some r ∧ r.bank = some b ∧ r.eff = eff s b

/-! ## Reset and the AArch64 name (10_state.md R13, R33; 70_reset_and_hazards.md) -/

/-- 70_reset_and_hazards.md section 1 (R120 to R122): a reset of any kind leaves every copy UNKNOWN and takes from the enclosing PE what the
spec does not reset. That it keeps the implementation is the spec's decision D22; that it keeps memory and the rest of the schedule is the
model's choice (log entry 20). -/
def Obligations.ResetMakesEveryCopyUnknown : Prop :=
  ∀ (s : State) (kind : ResetKind) (r : ResetInputs) (rest : List Turn),
    s.schedule = .env (.reset kind r) :: rest →
    ∃ t, step s = .next t ∧ t.srN.content = .unknown ∧ t.srS.content = .unknown ∧ t.ctx = r.ctx ∧ t.x = r.x ∧
      t.pc = r.pc ∧ t.cfg = s.cfg ∧ t.mem = s.mem ∧ t.schedule = rest

/-- 70_reset_and_hazards.md R120 (vector RST-4): after a reset, while the governing TTBCR.{EAE, T2E} is not {1, 1}, a walk acts on zero
whatever the UNKNOWN content: the hierarchical bits stand as held and no entry bit is used. -/
def Obligations.WalkAfterResetActsOnZero : Prop :=
  ∀ (s : State) (kind : ResetKind) (r : ResetInputs) (q : WalkRequest) (rest : List Turn),
    s.schedule = .env (.reset kind r) :: .env (.walk q) :: rest → q.regime = .pl10Stage1 →
    ¬((ttbcrOf r.ctx (walkBank s.cfg r.ctx q.security)).eae = true ∧
      (ttbcrOf r.ctx (walkBank s.cfg r.ctx q.security)).t2e = true) →
    ∃ t u w, step s = .next t ∧ step t = .next u ∧ u.lastWalk = some w ∧ w.eff = 0#32 ∧
      w.hier = q.tables ∧ w.uses = []

/-- 10_state.md R13 with the spec's decisions D4 and D21: a write of TCR_EL1 changes what a later MRC of TTBCR2 or TTBCR2_NS returns:
bit n is bit n + 32 of TCR_EL1, less the bits that hold no state. -/
def Obligations.TcrWriteIsSeenByMrc : Prop :=
  ∀ (s : State) (v : DoubleWord) (rest : List Turn) (j : Instr) (k : Fin 15),
    s.schedule = .env (.writeTcr v) :: rest → selectBank s.cfg s.ctx ≠ .secure →
    j.isRead = true → j.wf = true → j.rt.val = k.val → conditionPassed s.ctx (condOf s.ctx j) = true →
    readAllowed s.cfg s.ctx = true → premises s.cfg s.ctx = true →
    ∃ t u, step s = .next t ∧ exec j t = .next u ∧
      (∀ n : Nat, n < 32 → u.x[k].getLsbD n = (v.getLsbD (n + 32) && (writeMask s.cfg).getLsbD n)) ∧
      t.srS = s.srS

/-- 10_state.md R13 with the spec's decisions D4 and D21: an MCR to TTBCR2 or TTBCR2_NS changes what the environment reads of
TCR_EL1[63:32]. -/
def Obligations.McrIsSeenByTcrRead : Prop :=
  ∀ (s : State) (i : Instr) (k : Fin 15) (rest : List Turn),
    s.schedule = .env .readTcr :: rest → selectBank s.cfg s.ctx ≠ .secure →
    i.isRead = false → i.wf = true → i.rt.val = k.val → conditionPassed s.ctx (condOf s.ctx i) = true →
    writeAllowed s.cfg s.ctx = true → premises s.cfg s.ctx = true →
    ∃ t u, exec i s = .next t ∧ step t = .next u ∧
      u.lastTcr = some (s.x[k] &&& writeMask s.cfg) ∧ u.srN = t.srN ∧ u.srS = t.srS

/-! ## The whole machine -/

/-- The invariant of the model holds at reset. -/
def Obligations.InvariantAtReset : Prop := State.Inv State.reset

/-- 10_state.md R27 and 20_memory.md R40, and the model's canonical form of memory: every step of every agent keeps the memory
canonical, and no copy of the register, new or still visible to translation, gets a 1 where no bit holds state. -/
def Obligations.EveryStepKeepsInvariant : Prop :=
  ∀ s t : State, State.Inv s → step s = .next t → State.Inv t

/-- 10_state.md section 7 and decision D21 ("the hardware never updates TTBCR2 on its own"): over every step of every agent, the content
of the cell of TTBCR2 and TTBCR2_NS changes only by an MCR, by a write of TCR_EL1 or by a reset; that of TTBCR2_S only by an MCR at EL3
with SCR.NS 0 and both signals LOW, or by a reset. -/
def Obligations.OnlyWritersChangeTheRegister : Prop :=
  ∀ s t : State, step s = .next t →
    (t.srN.content ≠ s.srN.content →
      (∃ i, instrOf s = some i ∧ i.isRead = false ∧ selectBank s.cfg s.ctx ≠ .secure) ∨
      (∃ v, moveOf s = some (.writeTcr v)) ∨ isReset s = true) ∧
    (t.srS.content ≠ s.srS.content →
      (∃ i, instrOf s = some i ∧ i.isRead = false ∧ s.ctx.el = .el3 ∧ s.ctx.scrNS = false ∧
        s.ctx.cp15sdisable = .low ∧ s.ctx.cp15sdisable2 = .low) ∨
      isReset s = true)

/-- 10_state.md section 7 and decision D22: over every step of every agent, a general register changes only by the MRC that names it or by a
reset; the pc only by an instruction, and then by 4 (decision D10), or by a reset; the context only by the environment or by a reset; the
implementation never. Every byte of memory never: for the instructions that is R40 of 20_memory.md; for resets and the moves of the
other agents, and that memory holds nothing but instruction bytes, it is the model's choice (log entries 20 and 12). That no context change
touches a general register is the model's choice too (log entry 23). -/
def Obligations.OnlyWritersChangeTheRest : Prop :=
  ∀ s t : State, step s = .next t →
    (∀ j : Fin 15, t.x[j] ≠ s.x[j] →
      (∃ i, instrOf s = some i ∧ i.isRead = true ∧ i.rt.val = j.val) ∨ isReset s = true) ∧
    (t.pc ≠ s.pc → ((∃ i, instrOf s = some i) ∧ t.pc = s.pc + 4#32) ∨ isReset s = true) ∧
    (t.ctx ≠ s.ctx → moveOf s = some (.setContext t.ctx) ∨ isReset s = true) ∧
    t.cfg = s.cfg ∧ (∀ a, Memory.read a t.mem = Memory.read a s.mem)

/-- 10_state.md R31 with the spec's decisions D26 and D29: the environment may change the context inputs to any values between two
instructions. Where whether EL3 is implemented and uses AArch32 stays as it is, the step takes the change, and nothing else changes but
the turn and the views kept for a TLB; where it does not, the step is refused by name (the model's choice on the premise of decision D4:
log entry 7). That the general registers and the older contents stay is the model's choice (log entries 23 and 26). -/
def Obligations.ContextChangeIsTaken : Prop :=
  ∀ (s : State) (c : Ctx) (rest : List Turn), s.schedule = .env (.setContext c) :: rest →
    (e3a32 s.cfg c = e3a32 s.cfg s.ctx →
      ∃ t, step s = .next t ∧ t = { s with ctx := c, schedule := rest, srN := t.srN, srS := t.srS } ∧
        t.srN.content = s.srN.content ∧ t.srN.unsynced = s.srN.unsynced ∧
        t.srS.content = s.srS.content ∧ t.srS.unsynced = s.srS.unsynced) ∧
    (e3a32 s.cfg c ≠ e3a32 s.cfg s.ctx → step s = .refused .el3StateChange)

/-- The premise of decision D4, kept by every step: EL3's Execution state, as far as it chooses between the copies, changes only at a
reset. So between two resets a run reaches TTBCR2 alone or the pair of TTBCR2_S and TTBCR2_NS (10_state.md R12). -/
def Obligations.El3StateFixedBetweenResets : Prop :=
  ∀ s t : State, step s = .next t → isReset s = false →
    e3a32 t.cfg t.ctx = e3a32 s.cfg s.ctx ∧
    (premises t.cfg t.ctx = true → premises s.cfg s.ctx = true →
      (selectBank t.cfg t.ctx = .plain ↔ selectBank s.cfg s.ctx = .plain))

/-- What reset leaves: every copy UNKNOWN (R33), at EL1 in an implementation that has the register and neither EL2 nor EL3, with TTBCR
{0, 0} (the model's choice: log entries 1 and 2), so that the effective word of every copy is zero (R120). That memory and the schedule are
empty is the model's choice as well (log entries 12 and 18). -/
def Obligations.ResetStateContents : Prop :=
  (∀ b, (State.reset.cell b).content = .unknown ∧ eff State.reset b = 0#32) ∧ State.reset.mem = [] ∧
    State.reset.schedule = []
end

