-- ==== Sys2Proof/Laws/Decode.lean ====
section
/-! SUPPORT. The small facts that the encoding statements rest on: bytes and words, conditions, fields. -/

namespace Sys2Proof

/-- A word's bytes spell the word, in both instruction sets. -/
theorem decode_bytesOf (set : ISet) (w : Word) (rest : List Byte) :
    decode set (bytesOf set w ++ rest) = (decodeWord set w, rest) := by
  have h (b0 b1 b2 b3 : Byte) (hb0 : b0 = w.extractLsb' 0 8) (hb1 : b1 = w.extractLsb' 8 8)
      (hb2 : b2 = w.extractLsb' 16 8) (hb3 : b3 = w.extractLsb' 24 8) : b3 ++ b2 ++ b1 ++ b0 = w := by
    subst hb0 hb1 hb2 hb3
    ext i hi
    simp only [BitVec.getElem_append, BitVec.getElem_extractLsb']
    have : w[i] = w.getLsbD i := (BitVec.getLsbD_eq_getElem hi).symm
    rw [this]
    by_cases h0 : i < 8
    · simp [h0]
    · by_cases h1 : i - 8 < 8
      · have : 8 + (i - 8) = i := by omega
        simp [h0, h1, this]
      · by_cases h2 : i - 8 - 8 < 8
        · have : 16 + (i - 8 - 8) = i := by omega
          simp [h0, h1, h2, this]
        · have : 24 + (i - 8 - 8 - 8) = i := by omega
          simp [h0, h1, h2, this]
  cases set <;> simp [bytesOf, decode, wordOf, h _ _ _ _ rfl rfl rfl rfl]

/-- The code of a condition is the code of that condition. -/
@[simp] theorem Cond.ofBits_bits (c : Cond) : Cond.ofBits c.bits = some c := by cases c <;> rfl

/-- Only 0b1111 is the code of no condition (rule R62). -/
theorem Cond.ofBits_eq_none {b : BitVec 4} : Cond.ofBits b = none ↔ b = 15#4 := by
  revert b; decide

/-- A condition read from a code has that code. -/
theorem Cond.bits_of_ofBits {b : BitVec 4} {c : Cond} (h : Cond.ofBits b = some c) : c.bits = b := by
  have key : ∀ b : BitVec 4, (Cond.ofBits b).elim b Cond.bits = b := by decide
  simpa [h] using key b

/-- The fields of a word are the word. -/
theorem word_fieldsOf (w : Word) : (fieldsOf w).word = w := by
  have join (a k n : Nat) : w.extractLsb' (a + k) n ++ w.extractLsb' a k = w.extractLsb' a (n + k) :=
    BitVec.extractLsb'_append_extractLsb'_eq_extractLsb' rfl
  simp only [Fields.word, fieldsOf]
  rw [join 24 4 4, join 21 3 8, join 20 1 11, join 16 4 12, join 12 4 16, join 8 4 20, join 5 3 24, join 4 1 27,
    join 0 4 28]
  exact BitVec.extractLsb'_eq_self

/-- The fields of a word that is an MRC or MCR of TTBCR2 are those of R60 in the layout of R62 and R63. -/
theorem Fields.eq_ttbcr2Fields {f : Fields} (h1 : f.isMrcMcr = true) (h2 : f.selectsTtbcr2 = true) :
    f = ttbcr2Fields f.top f.l f.rt.toFin := by
  obtain ⟨top, op, opc1, l, crn, rt, cop, opc2, one, crm⟩ := f
  simp [Fields.isMrcMcr, Fields.selectsTtbcr2] at h1 h2
  obtain ⟨rfl, rfl⟩ := h1
  obtain ⟨⟨⟨⟨rfl, rfl⟩, rfl⟩, rfl⟩, rfl⟩ := h2
  simp [ttbcr2Fields]

/-- Everything an A32 word that decodes holds (rules R60, R62, R68). -/
theorem decodeA32_cases {w : Word} {i : Instr} (h : decodeA32 w = .instr i) :
    ∃ c, (fieldsOf w).isMrcMcr = true ∧ Cond.ofBits (fieldsOf w).top = some c ∧
      (fieldsOf w).selectsTtbcr2 = true ∧ (fieldsOf w).rt ≠ 15#4 ∧
      i = if (fieldsOf w).l = 1#1 then .mrcA32 c (fieldsOf w).rt.toFin else .mcrA32 c (fieldsOf w).rt.toFin := by
  simp only [decodeA32] at h
  split at h
  · cases h
  · split at h
    · cases h
    · split at h
      · cases h
      · split at h
        · cases h
        · refine ⟨_, ?_, ‹_›, ?_, ?_, ?_⟩ <;> simp_all
          split at h <;> simp_all

/-- Everything a T32 pair of halfwords that decodes holds (rules R60, R63, R68). -/
theorem decodeT32_cases {w : Word} {i : Instr} (h : decodeT32 w = .instr i) :
    (fieldsOf w).isMrcMcr = true ∧ (fieldsOf w).top = 14#4 ∧ (fieldsOf w).selectsTtbcr2 = true ∧
      (fieldsOf w).rt ≠ 15#4 ∧ (fieldsOf w).rt ≠ 13#4 ∧
      i = if (fieldsOf w).l = 1#1 then .mrcT32 (fieldsOf w).rt.toFin else .mcrT32 (fieldsOf w).rt.toFin := by
  simp only [decodeT32] at h
  split at h
  · cases h
  · split at h
    · cases h
    · split at h
      · cases h
      · split at h
        · cases h
        · refine ⟨?_, ?_, ?_, ?_, ?_, ?_⟩ <;> simp_all
          split at h <;> simp_all

end Sys2Proof
end

