-- ==== Sys2Proof/Laws/State.lean ====
section
/-! SUPPORT. One lemma per field per update of the state: no later proof unfolds a record update. -/

namespace Sys2Proof.Machine

variable (s : State)

/-! ## cell -/

@[simp] theorem cell_plain : s.cell .plain = s.srN := rfl
@[simp] theorem cell_secure : s.cell .secure = s.srS := rfl
@[simp] theorem cell_nonsecure : s.cell .nonsecure = s.srN := rfl

/-- The cells of a state are its two cell fields: an update of anything else keeps them. -/
theorem cell_congr {t : State} (hN : t.srN = s.srN) (hS : t.srS = s.srS) (b : Bank) : t.cell b = s.cell b := by
  cases b <;> simp [hN, hS]

/-! ## advancePc -/

@[simp] theorem advancePc_cfg : (advancePc s).cfg = s.cfg := rfl
@[simp] theorem advancePc_ctx : (advancePc s).ctx = s.ctx := rfl
@[simp] theorem advancePc_x : (advancePc s).x = s.x := rfl
@[simp] theorem advancePc_pc : (advancePc s).pc = s.pc + 4#32 := rfl
@[simp] theorem advancePc_srN : (advancePc s).srN = s.srN := rfl
@[simp] theorem advancePc_srS : (advancePc s).srS = s.srS := rfl
@[simp] theorem advancePc_mem : (advancePc s).mem = s.mem := rfl
@[simp] theorem advancePc_schedule : (advancePc s).schedule = s.schedule := rfl
@[simp] theorem advancePc_lastWalk : (advancePc s).lastWalk = s.lastWalk := rfl
@[simp] theorem advancePc_lastTcr : (advancePc s).lastTcr = s.lastTcr := rfl
@[simp] theorem advancePc_draws : (advancePc s).draws = s.draws := rfl
@[simp] theorem advancePc_cell : (advancePc s).cell = s.cell := by funext b; cases b <;> rfl

/-! ## writeX -/

variable (k : Fin 15) (v : Word)

@[simp] theorem writeX_cfg : (writeX k v s).cfg = s.cfg := rfl
@[simp] theorem writeX_ctx : (writeX k v s).ctx = s.ctx := rfl
@[simp] theorem writeX_x : (writeX k v s).x = s.x.set k v := rfl
@[simp] theorem writeX_pc : (writeX k v s).pc = s.pc := rfl
@[simp] theorem writeX_srN : (writeX k v s).srN = s.srN := rfl
@[simp] theorem writeX_srS : (writeX k v s).srS = s.srS := rfl
@[simp] theorem writeX_mem : (writeX k v s).mem = s.mem := rfl
@[simp] theorem writeX_schedule : (writeX k v s).schedule = s.schedule := rfl
@[simp] theorem writeX_lastWalk : (writeX k v s).lastWalk = s.lastWalk := rfl
@[simp] theorem writeX_lastTcr : (writeX k v s).lastTcr = s.lastTcr := rfl
@[simp] theorem writeX_draws : (writeX k v s).draws = s.draws := rfl
@[simp] theorem writeX_cell : (writeX k v s).cell = s.cell := by funext b; cases b <;> rfl

/-! ## afterReadSR -/

variable (b : Bank)

@[simp] theorem afterReadSR_cfg : (afterReadSR b s).cfg = s.cfg := rfl
@[simp] theorem afterReadSR_ctx : (afterReadSR b s).ctx = s.ctx := rfl
@[simp] theorem afterReadSR_x : (afterReadSR b s).x = s.x := rfl
@[simp] theorem afterReadSR_pc : (afterReadSR b s).pc = s.pc := rfl
@[simp] theorem afterReadSR_srN : (afterReadSR b s).srN = s.srN := rfl
@[simp] theorem afterReadSR_srS : (afterReadSR b s).srS = s.srS := rfl
@[simp] theorem afterReadSR_mem : (afterReadSR b s).mem = s.mem := rfl
@[simp] theorem afterReadSR_schedule : (afterReadSR b s).schedule = s.schedule := rfl
@[simp] theorem afterReadSR_lastWalk : (afterReadSR b s).lastWalk = s.lastWalk := rfl
@[simp] theorem afterReadSR_lastTcr : (afterReadSR b s).lastTcr = s.lastTcr := rfl
@[simp] theorem afterReadSR_draws : (afterReadSR b s).draws = s.draws + contentDraws (s.cell b).content := rfl
@[simp] theorem afterReadSR_cell : (afterReadSR b s).cell = s.cell := by funext b; cases b <;> rfl

/-! ## resetWith -/

variable (r : ResetInputs)

@[simp] theorem resetWith_cfg : (resetWith r s).cfg = s.cfg := rfl
@[simp] theorem resetWith_ctx : (resetWith r s).ctx = r.ctx := rfl
@[simp] theorem resetWith_x : (resetWith r s).x = r.x := rfl
@[simp] theorem resetWith_pc : (resetWith r s).pc = r.pc := rfl
@[simp] theorem resetWith_mem : (resetWith r s).mem = s.mem := rfl
@[simp] theorem resetWith_schedule : (resetWith r s).schedule = s.schedule := rfl
@[simp] theorem resetWith_lastWalk : (resetWith r s).lastWalk = s.lastWalk := rfl
@[simp] theorem resetWith_lastTcr : (resetWith r s).lastTcr = s.lastTcr := rfl
@[simp] theorem resetWith_draws : (resetWith r s).draws = s.draws := rfl

/-- After a reset every copy is UNKNOWN, for reads and for walks (rules R33, R120). -/
@[simp] theorem resetWith_cell_content : ((resetWith r s).cell b).content = .unknown := by
  cases b <;> simp only [State.cell, resetWith] <;> split <;> rfl

@[simp] theorem resetWith_cell_unsynced : ((resetWith r s).cell b).unsynced = [] := by
  cases b <;> simp only [State.cell, resetWith] <;> split <;> rfl

/-! ## setCell and writeSR -/

variable (c : Cell)

@[simp] theorem setCell_cfg : (s.setCell b c).cfg = s.cfg := by cases b <;> rfl
@[simp] theorem setCell_ctx : (s.setCell b c).ctx = s.ctx := by cases b <;> rfl
@[simp] theorem setCell_x : (s.setCell b c).x = s.x := by cases b <;> rfl
@[simp] theorem setCell_pc : (s.setCell b c).pc = s.pc := by cases b <;> rfl
@[simp] theorem setCell_mem : (s.setCell b c).mem = s.mem := by cases b <;> rfl
@[simp] theorem setCell_schedule : (s.setCell b c).schedule = s.schedule := by cases b <;> rfl
@[simp] theorem setCell_lastWalk : (s.setCell b c).lastWalk = s.lastWalk := by cases b <;> rfl
@[simp] theorem setCell_lastTcr : (s.setCell b c).lastTcr = s.lastTcr := by cases b <;> rfl
@[simp] theorem setCell_draws : (s.setCell b c).draws = s.draws := by cases b <;> rfl

/-- Setting a cell changes it under every name it has, and no other cell. -/
theorem setCell_cell (b' : Bank) :
    (s.setCell b c).cell b' = if (b = .secure) = (b' = .secure) then c else s.cell b' := by
  cases b <;> cases b' <;> rfl

@[simp] theorem setCell_cell_self : (s.setCell b c).cell b = c := by cases b <;> rfl

@[simp] theorem writeSR_cfg : (writeSR b v s).cfg = s.cfg := by cases b <;> rfl
@[simp] theorem writeSR_ctx : (writeSR b v s).ctx = s.ctx := by cases b <;> rfl
@[simp] theorem writeSR_x : (writeSR b v s).x = s.x := by cases b <;> rfl
@[simp] theorem writeSR_pc : (writeSR b v s).pc = s.pc := by cases b <;> rfl
@[simp] theorem writeSR_mem : (writeSR b v s).mem = s.mem := by cases b <;> rfl
@[simp] theorem writeSR_schedule : (writeSR b v s).schedule = s.schedule := by cases b <;> rfl
@[simp] theorem writeSR_lastWalk : (writeSR b v s).lastWalk = s.lastWalk := by cases b <;> rfl
@[simp] theorem writeSR_lastTcr : (writeSR b v s).lastTcr = s.lastTcr := by cases b <;> rfl
@[simp] theorem writeSR_draws : (writeSR b v s).draws = s.draws := by cases b <;> rfl

/-- The written copy holds the written value, less the bits that hold no state (rule R84). -/
@[simp] theorem writeSR_content :
    ((writeSR b v s).cell b).content = .known (v &&& writeMask s.cfg) := by
  simp [writeSR, Cell.write]

/-- A write of TTBCR2_S leaves the other cell alone. -/
@[simp] theorem writeSR_secure_srN : (writeSR .secure v s).srN = s.srN := rfl

/-- A write of TTBCR2 or TTBCR2_NS leaves TTBCR2_S alone. -/
theorem writeSR_srS (h : b ≠ .secure) : (writeSR b v s).srS = s.srS := by
  cases b <;> first | rfl | exact absurd rfl h

end Sys2Proof.Machine
end

