-- ==== Sys2Proof/Laws/Memory.lean ====
section
/-! SUPPORT. What every memory operation does, and that it keeps the canonical form. -/

namespace Sys2Proof.Machine

theorem Memory.below_write {a a' : Nat} (b : Byte) {m : Memory} (h : a' < a) (hm : Memory.below a' m = true) :
    Memory.below a' (Memory.write a b m) = true := by
  cases m with
  | nil => simpa [Memory.write, Memory.below] using h
  | cons c m =>
    simp only [Memory.below, decide_eq_true_eq] at hm
    simp only [Memory.write]
    split
    · simpa [Memory.below] using h
    · split
      · simpa [Memory.below] using h
      · simpa [Memory.below] using hm

theorem Memory.wf_cons {c : Host.Cell} {m : Memory} :
    Memory.wf (c :: m) = true ↔ c.1 < 2 ^ 32 ∧ Memory.below c.1 m = true ∧ Memory.wf m = true := by
  rw [Memory.wf, Bool.and_eq_true, Bool.and_eq_true, decide_eq_true_eq, and_assoc]

theorem Memory.below_cons {a : Nat} {c : Host.Cell} {m : Memory} : Memory.below a (c :: m) = true ↔ a < c.1 :=
  decide_eq_true_iff

/-- A write keeps the canonical form. -/
theorem Memory.write_wf {a : Nat} (b : Byte) {m : Memory} (ha : a < 2 ^ 32) (hm : Memory.wf m = true) :
    Memory.wf (Memory.write a b m) = true := by
  induction m with
  | nil => exact Memory.wf_cons.2 ⟨ha, rfl, rfl⟩
  | cons c m ih =>
    obtain ⟨hc, hbelow, hwf⟩ := Memory.wf_cons.1 hm
    simp only [Memory.write]
    split
    next hlt => exact Memory.wf_cons.2 ⟨ha, Memory.below_cons.2 hlt, hm⟩
    next hlt =>
      split
      next heq => exact Memory.wf_cons.2 ⟨ha, heq ▸ hbelow, hwf⟩
      next hne => exact Memory.wf_cons.2 ⟨hc, Memory.below_write b (by omega) hbelow, ih hwf⟩

/-- The byte written is the byte read. -/
@[simp] theorem Memory.read_write_self (a : Nat) (b : Byte) (m : Memory) :
    Memory.read a (Memory.write a b m) = some b := by
  induction m with
  | nil => simp [Memory.write, Memory.read]
  | cons c m ih =>
    simp only [Memory.write]
    split
    · simp [Memory.read]
    · split
      · simp [Memory.read]
      · next hne => rw [Memory.read, if_neg (fun h => hne h.symm), ih]

/-- Every other byte reads as before. -/
theorem Memory.read_write_ne {a a' : Nat} (b : Byte) (m : Memory) (h : a' ≠ a) :
    Memory.read a' (Memory.write a b m) = Memory.read a' m := by
  induction m with
  | nil => simp [Memory.write, Memory.read, Ne.symm h]
  | cons c m ih =>
    simp only [Memory.write]
    split
    · simp [Memory.read, Ne.symm h]
    · split
      · next heq => subst heq; simp [Memory.read, Ne.symm h]
      · simp [Memory.read, ih]

theorem byteAddr_lt (pc : Word) (k : Nat) : byteAddr pc k < 2 ^ 32 := (pc + BitVec.ofNat 32 k).isLt

/-- The four bytes of an instruction stand at four addresses. -/
theorem byteAddr_inj {pc : Word} {j k : Nat} (hj : j < 4) (hk : k < 4) (h : byteAddr pc j = byteAddr pc k) :
    j = k := by
  simp only [byteAddr, BitVec.toNat_add, BitVec.toNat_ofNat] at h
  omega

/-- Putting bytes in memory keeps the canonical form. -/
theorem Memory.writeBytes_wf (pc : Word) (bs : List Byte) (k : Nat) {m : Memory} (hm : Memory.wf m = true) :
    Memory.wf (Memory.writeBytes pc k bs m) = true := by
  induction bs generalizing k m with
  | nil => exact hm
  | cons b bs ih => exact ih (k + 1) (Memory.write_wf b (byteAddr_lt pc k) hm)

/-- The four bytes put at a pc are the four bytes fetched there. -/
theorem fetchBytes_writeBytes (pc : Word) (b0 b1 b2 b3 : Byte) (m : Memory) :
    fetchBytes pc (Memory.writeBytes pc 0 [b0, b1, b2, b3] m) = some [b0, b1, b2, b3] := by
  have ne : ∀ {j k : Nat}, j < 4 → k < 4 → j ≠ k → byteAddr pc j ≠ byteAddr pc k :=
    fun hj hk hne h => hne (byteAddr_inj hj hk h)
  simp only [Memory.writeBytes, Nat.reduceAdd, fetchBytes]
  rw [Memory.read_write_ne _ _ (ne (j := 0) (k := 3) (by decide) (by decide) (by decide)),
    Memory.read_write_ne _ _ (ne (j := 0) (k := 2) (by decide) (by decide) (by decide)),
    Memory.read_write_ne _ _ (ne (j := 0) (k := 1) (by decide) (by decide) (by decide)),
    Memory.read_write_self,
    Memory.read_write_ne _ _ (ne (j := 1) (k := 3) (by decide) (by decide) (by decide)),
    Memory.read_write_ne _ _ (ne (j := 1) (k := 2) (by decide) (by decide) (by decide)),
    Memory.read_write_self,
    Memory.read_write_ne _ _ (ne (j := 2) (k := 3) (by decide) (by decide) (by decide)),
    Memory.read_write_self, Memory.read_write_self]

/-- What is fetched is four bytes. -/
theorem fetchBytes_length {pc : Word} {m : Memory} {bs : List Byte} (h : fetchBytes pc m = some bs) :
    ∃ b0 b1 b2 b3, bs = [b0, b1, b2, b3] := by
  simp only [fetchBytes] at h
  split at h
  · exact ⟨_, _, _, _, (Option.some.inj h).symm⟩
  · cases h

end Sys2Proof.Machine
end

