-- ==== Sys2Proof/Laws/Register.lean ====
section
/-! SUPPORT. Masks, contents, cells, and the effective values. -/

namespace Sys2Proof.Machine

/-! ## Lists without repeats -/

section Lists
variable {α : Type} [DecidableEq α]

@[simp] theorem mem_addNew (a b : α) (l : List α) : b ∈ addNew a l ↔ b = a ∨ b ∈ l := by
  unfold addNew
  split
  · exact ⟨.inr, fun h => h.elim (fun e => e ▸ ‹_›) id⟩
  · simp

@[simp] theorem mem_addAll (as : List α) (b : α) (l : List α) : b ∈ addAll as l ↔ b ∈ as ∨ b ∈ l := by
  induction as with
  | nil => simp [addAll]
  | cons a as ih =>
    have : addAll (a :: as) l = addNew a (addAll as l) := rfl
    rw [this, mem_addNew, ih, List.mem_cons, or_assoc]

theorem nodup_addNew (a : α) {l : List α} (h : l.Nodup) : (addNew a l).Nodup := by
  unfold addNew
  split
  · exact h
  · exact List.nodup_cons.2 ⟨‹_›, h⟩

theorem nodup_addAll (as : List α) {l : List α} (h : l.Nodup) : (addAll as l).Nodup := by
  induction as with
  | nil => exact h
  | cons a as ih => exact nodup_addNew a ih

end Lists

/-! ## Masks and contents -/

/-- Every field position holds state (rule R27). -/
theorem fieldMask_and_writeMask (g : Config) : writeMask g &&& fieldMask g = fieldMask g := by
  ext i hi
  simp only [writeMask, BitVec.getElem_and, BitVec.getElem_or]
  cases (fieldMask g)[i] <;> simp

theorem masked_known {g : Config} {v : Word} : (Content.known (v &&& writeMask g)).masked g = true := by
  simp [Content.masked, BitVec.and_assoc, BitVec.and_not_self]

/-- What a content shows has no 1 where no bit holds state (rules R27, R83). -/
theorem contentWord_masked (g : Config) (c : Content) (k : Nat) :
    contentWord g c k &&& ~~~(writeMask g) = 0#32 := by
  cases c <;> simp [contentWord, BitVec.and_assoc, BitVec.and_not_self]

/-! ## Cells -/

theorem Cell.mem_views {a : Bool} {k : Cell} {v : View} :
    v ∈ k.views a ↔ (v.content = k.content ∨ v.content ∈ k.unsynced) ∧ v.active = a := by
  obtain ⟨c, b⟩ := v
  simp only [Cell.views, List.mem_map, List.mem_cons, View.mk.injEq]
  constructor
  · rintro ⟨c', h, rfl, rfl⟩; exact ⟨h, rfl⟩
  · rintro ⟨h, rfl⟩; exact ⟨c, h, rfl, rfl⟩

@[simp] theorem Cell.retire_content (a : Bool) (k : Cell) : (k.retire a).content = k.content := rfl
@[simp] theorem Cell.retire_unsynced (a : Bool) (k : Cell) : (k.retire a).unsynced = k.unsynced := rfl

/-- What a TLB may hold after a change: what it could, and what a walk could use. -/
@[simp] theorem Cell.mem_retire_cached {a : Bool} {k : Cell} {v : View} :
    v ∈ (k.retire a).cached ↔ v ∈ k.views a ∨ v ∈ k.cached := mem_addAll _ _ _

/-- Every view a walk uses of a good cell is masked. -/
theorem Cell.ok.views {g : Config} {k : Cell} (h : k.ok g) {a : Bool} {v : View} (hv : v ∈ k.views a) :
    v.content.masked g = true := by
  rcases (Cell.mem_views.1 hv).1 with e | e
  · rw [e]; exact h.1
  · exact h.2.1 _ e

theorem Cell.ok.retire {g : Config} {k : Cell} (h : k.ok g) (a : Bool) : (k.retire a).ok g :=
  ⟨h.1, h.2.1, fun v hv => (Cell.mem_retire_cached.1 hv).elim h.views (h.2.2.1 v), h.2.2.2.1,
    nodup_addAll _ h.2.2.2.2⟩

theorem Cell.ok.write {g : Config} {k : Cell} (h : k.ok g) (a : Bool) (v : Word) :
    (k.write a (v &&& writeMask g)).ok g :=
  ⟨masked_known,
    fun c hc => by
      rcases (mem_addNew _ _ _).1 hc with e | e
      · rw [e]; exact h.1
      · exact h.2.1 _ e,
    (h.retire a).2.2.1, nodup_addNew _ h.2.2.2.1, (h.retire a).2.2.2.2⟩

theorem Cell.ok.sync {g : Config} {k : Cell} (h : k.ok g) (a : Bool) : (k.sync a).ok g :=
  ⟨h.1, by simp [Cell.sync], (h.retire a).2.2.1, List.nodup_nil, (h.retire a).2.2.2.2⟩

theorem Cell.ok.invalidate {g : Config} {k : Cell} (h : k.ok g) : k.invalidate.ok g :=
  ⟨h.1, by simp [Cell.invalidate], by simp [Cell.invalidate], List.nodup_nil, List.nodup_nil⟩

theorem Cell.ok.reset {g : Config} {k : Cell} (h : k.ok g) (a : Bool) : (k.reset a).ok g :=
  ⟨rfl, by simp [Cell.reset], (h.retire a).2.2.1, List.nodup_nil, (h.retire a).2.2.2.2⟩

@[simp] theorem Cell.share_content (other k : Cell) : (Cell.share other k).content = k.content := rfl
@[simp] theorem Cell.share_unsynced (other k : Cell) : (Cell.share other k).unsynced = k.unsynced := rfl

@[simp] theorem Cell.mem_share_cached {other k : Cell} {v : View} :
    v ∈ (Cell.share other k).cached ↔ v ∈ other.cached ∨ v ∈ k.cached := mem_addAll _ _ _

theorem Cell.ok.share {g : Config} {other k : Cell} (ho : other.ok g) (h : k.ok g) : (Cell.share other k).ok g :=
  ⟨h.1, h.2.1, fun v hv => (Cell.mem_share_cached.1 hv).elim (ho.2.2.1 v) (h.2.2.1 v), h.2.2.2.1,
    nodup_addAll _ h.2.2.2.2⟩

/-- What a TLB may hold of a cell after its reset: all it could, and what a walk could use. -/
@[simp] theorem Cell.mem_reset_cached {a : Bool} {k : Cell} {v : View} :
    v ∈ (k.reset a).cached ↔ v ∈ k.views a ∨ v ∈ k.cached := Cell.mem_retire_cached

/-! ## Effective values -/

/-- The fields of an implementation, bit by bit (rule R27). -/
theorem fieldMask_getLsbD (g : Config) (i : Nat) :
    (fieldMask g).getLsbD i = (decide (i = 9) || decide (i = 10) || (g.hpds2 && decide (11 ≤ i ∧ i ≤ 18))) := by
  by_cases hi : i < 32
  · unfold fieldMask
    cases g.hpds2 <;> interval_cases i <;> rfl
  · have : (fieldMask g).getLsbD i = false := BitVec.getLsbD_of_ge _ _ (by omega)
    rw [this]
    have h1 : i ≠ 9 := by omega
    have h2 : i ≠ 10 := by omega
    have h3 : ¬(11 ≤ i ∧ i ≤ 18) := by omega
    simp [h1, h2, h3]

/-- The `Eff` word of a copy in terms of what a read of it would show (rule R28). -/
theorem eff_eq (s : State) (b : Bank) :
    eff s b = if active s.cfg s.ctx b then readSR b s &&& fieldMask s.cfg else 0#32 := by
  have h : (present s.cfg && active s.cfg s.ctx b) = active s.cfg s.ctx b := by
    unfold active; cases present s.cfg <;> rfl
  simp only [eff, viewEff, currentView, readSR, h]

end Sys2Proof.Machine
end

