-- ==== Sys2Proof/Laws/Ops.lean ====
section
/-! SUPPORT. What the shared operations can do: one lemma each, cited in place of unfolding them. -/

namespace Sys2Proof.Machine

/-! ## Operands -/

/-- Which numbers name a register, and which register (rules R34, R68). -/
theorem rtIndex_eq_some {set : ISet} {t : RegNum} {k : Fin 15} :
    rtIndex set t = some k ↔ t.val = k.val ∧ ¬(set = .t32 ∧ t = 13) := by
  have hk := k.isLt
  unfold rtIndex
  split
  next h =>
    split
    next h13 => simp [h13]
    next h13 => exact ⟨fun e => ⟨congrArg Fin.val (Option.some.inj e), h13⟩, fun e => congrArg some (Fin.ext e.1)⟩
  next h => simp only [reduceCtorEq, false_iff, not_and]; omega

/-- A well-formed instruction names a register (rule R68). -/
theorem rtIndex_of_wf {i : Instr} (h : i.wf = true) : ∃ k, rtIndex i.iset i.rt = some k := by
  simp only [Instr.wf, Instr.rtNotFifteen, Instr.rtNotThirteenInT32, Bool.and_eq_true, Bool.or_eq_true, bne_iff_ne,
    ne_eq] at h
  have h15 : i.rt.val < 15 := by
    have := i.rt.isLt
    have : i.rt.val ≠ 15 := fun e => h.1 (Fin.ext e)
    omega
  exact ⟨⟨i.rt.val, h15⟩, rtIndex_eq_some.2 ⟨rfl, fun e => h.2.elim (· e.1) (· e.2)⟩⟩

/-- An ill-formed instruction names none (rule R68). -/
theorem rtIndex_of_not_wf {i : Instr} (h : i.wf = false) : rtIndex i.iset i.rt = none := by
  cases hk : rtIndex i.iset i.rt with
  | none => rfl
  | some k =>
    obtain ⟨h1, h2⟩ := rtIndex_eq_some.1 hk
    have hne : i.rt ≠ 15 := fun e => by
      have := k.isLt
      rw [e] at h1
      simp at h1
      omega
    have : i.wf = true := by
      simp only [Instr.wf, Instr.rtNotFifteen, Instr.rtNotThirteenInT32, Bool.and_eq_true, Bool.or_eq_true,
        bne_iff_ne, ne_eq]
      refine ⟨hne, ?_⟩
      by_cases e : i.iset = .t32
      · exact .inr fun e' => h2 ⟨e, e'⟩
      · exact .inl e
    rw [h] at this
    cases this

/-! ## The checks before an access -/

/-- The EL1 tests raise nothing exactly when no trap bit of the EL2 in use is set (rules R101, R102, R111). -/
theorem el1Trap_eq_none {g : Config} {c : Ctx} {vmA64 vmA32 : Bool} {q : TrapCause} {iss : BitVec 25} :
    el1Trap g c vmA64 vmA32 q iss = none ↔
      ¬(c.el2Enabled = true ∧ g.aa64EL2 = true ∧ c.el2UsingAArch32 = false ∧ (c.hstrEL2T2 = true ∨ vmA64 = true)) ∧
      ¬(c.el2Enabled = true ∧ g.aa32EL2 = true ∧ c.el2UsingAArch32 = true ∧ (c.hstrT2 = true ∨ vmA32 = true)) := by
  unfold el1Trap
  cases c.el2Enabled <;> cases g.aa64EL2 <;> cases g.aa32EL2 <;> cases c.el2UsingAArch32 <;> cases c.hstrEL2T2 <;>
    cases c.hstrT2 <;> cases vmA64 <;> cases vmA32 <;> simp

/-- Everything the EL1 tests can raise: a trap of an EL2 that is enabled, with the code of rule R103. -/
theorem el1Trap_cases {g : Config} {c : Ctx} {vmA64 vmA32 : Bool} {q : TrapCause} {iss : BitVec 25} {f : Fault}
    (h : el1Trap g c vmA64 vmA32 q iss = some f) :
    c.el2Enabled = true ∧
      ((g.aa64EL2 = true ∧ c.el2UsingAArch32 = false ∧
          ((c.hstrEL2T2 = true ∧ f = .trapToEL2A64 .t2 trapEc iss) ∨
            (c.hstrEL2T2 = false ∧ vmA64 = true ∧ f = .trapToEL2A64 q trapEc iss))) ∨
        (g.aa32EL2 = true ∧ c.el2UsingAArch32 = true ∧
          ((c.hstrT2 = true ∧ f = .hypTrap .t2 trapEc iss) ∨
            (c.hstrT2 = false ∧ vmA32 = true ∧ f = .hypTrap q trapEc iss)))) := by
  unfold el1Trap at h
  cases h1 : c.el2Enabled <;> cases h2 : g.aa64EL2 <;> cases h3 : g.aa32EL2 <;> cases h4 : c.el2UsingAArch32 <;>
    cases h5 : c.hstrEL2T2 <;> cases h6 : c.hstrT2 <;> cases vmA64 <;> cases vmA32 <;>
    simp [h1, h2, h3, h4, h5, h6] at h <;> simp [h]

/-- A read raises nothing exactly where rule R109 lets it through. -/
theorem readRaises_eq_none {g : Config} {c : Ctx} {iss : BitVec 25} :
    readRaises g c iss = none ↔ readAllowed g c = true := by
  unfold readRaises
  cases hp : present g
  · simp [readAllowed, hp]
  · cases he : c.el with
    | el1 =>
      simp only [Bool.not_true, Bool.false_eq_true, ↓reduceIte, el1Trap_eq_none]
      simp only [readAllowed, readTrapped, a64El2Over, a32El2Over, hp, he]
      cases c.el2Enabled <;> cases g.aa64EL2 <;> cases g.aa32EL2 <;> cases c.el2UsingAArch32 <;> simp
    | _ => simp [readAllowed, readTrapped, a64El2Over, a32El2Over, hp, he]

/-- A write raises nothing exactly where rule R109 lets it through. -/
theorem writeRaises_eq_none {g : Config} {c : Ctx} {iss : BitVec 25} :
    writeRaises g c iss = none ↔ writeAllowed g c = true := by
  unfold writeRaises
  cases hp : present g
  · simp [writeAllowed, hp]
  · cases he : c.el with
    | el1 =>
      simp only [Bool.not_true, Bool.false_eq_true, ↓reduceIte, el1Trap_eq_none]
      simp only [writeAllowed, writeTrapped, secureWriteLocked, a64El2Over, a32El2Over, hp, he]
      cases c.el2Enabled <;> cases g.aa64EL2 <;> cases g.aa32EL2 <;> cases c.el2UsingAArch32 <;> simp
    | el3 =>
      simp only [writeAllowed, writeTrapped, secureWriteLocked, a64El2Over, a32El2Over, hp, he]
      cases c.scrNS <;> cases c.cp15sdisable <;> cases c.cp15sdisable2 <;> simp
    | _ => simp [writeAllowed, writeTrapped, secureWriteLocked, a64El2Over, a32El2Over, hp, he]

/-- An access reaches a copy exactly within the premises, and then the copy of rule R82. -/
theorem accessBank_eq_some {s : State} {b : Bank} :
    accessBank s = some b ↔ premises s.cfg s.ctx = true ∧ b = selectBank s.cfg s.ctx := by
  unfold accessBank
  cases premises s.cfg s.ctx
  · exact ⟨fun h => (nomatch h), fun h => (nomatch h.1)⟩
  · exact ⟨fun h => ⟨rfl, (Option.some.inj h).symm⟩, fun h => congrArg some h.2.symm⟩

/-! ## The bodies -/

/-- Everything a read can do (rule R80). -/
theorem mrcBody_cases (set : ISet) (cond : Cond) (k : Fin 15) (s : State) :
    (∃ f, readRaises s.cfg s.ctx (issOf s.cfg set true cond k) = some f ∧ mrcBody set cond k s = .fault f) ∨
    (readAllowed s.cfg s.ctx = true ∧ premises s.cfg s.ctx = false ∧
      mrcBody set cond k s = .refused .contextOutsidePremises) ∨
    (readAllowed s.cfg s.ctx = true ∧ premises s.cfg s.ctx = true ∧
      mrcBody set cond k s = .next (advancePc (writeX k (readSR (selectBank s.cfg s.ctx) s)
        (afterReadSR (selectBank s.cfg s.ctx) s)))) := by
  cases hr : readRaises s.cfg s.ctx (issOf s.cfg set true cond k) with
  | some f => exact .inl ⟨f, rfl, by simp [mrcBody, hr, raise]⟩
  | none =>
    have ha := readRaises_eq_none.1 hr
    cases hp : premises s.cfg s.ctx
    · exact .inr (.inl ⟨ha, rfl, by simp [mrcBody, hr, accessBank, hp]⟩)
    · exact .inr (.inr ⟨ha, rfl, by simp [mrcBody, hr, accessBank, hp]⟩)

/-- Everything a write can do (rule R81). -/
theorem mcrBody_cases (set : ISet) (cond : Cond) (k : Fin 15) (s : State) :
    (∃ f, writeRaises s.cfg s.ctx (issOf s.cfg set false cond k) = some f ∧ mcrBody set cond k s = .fault f) ∨
    (writeAllowed s.cfg s.ctx = true ∧ premises s.cfg s.ctx = false ∧
      mcrBody set cond k s = .refused .contextOutsidePremises) ∨
    (writeAllowed s.cfg s.ctx = true ∧ premises s.cfg s.ctx = true ∧
      mcrBody set cond k s = .next (advancePc (writeSR (selectBank s.cfg s.ctx) (readX k s) s))) := by
  cases hr : writeRaises s.cfg s.ctx (issOf s.cfg set false cond k) with
  | some f => exact .inl ⟨f, rfl, by simp [mcrBody, hr, raise]⟩
  | none =>
    have ha := writeRaises_eq_none.1 hr
    cases hp : premises s.cfg s.ctx
    · exact .inr (.inl ⟨ha, rfl, by simp [mcrBody, hr, accessBank, hp]⟩)
    · exact .inr (.inr ⟨ha, rfl, by simp [mcrBody, hr, accessBank, hp]⟩)

/-- A read that rule R109 lets through, within the premises, is the read of the selected copy. -/
theorem mrcBody_next {set : ISet} {cond : Cond} {k : Fin 15} {s : State} (ha : readAllowed s.cfg s.ctx = true)
    (hp : premises s.cfg s.ctx = true) :
    mrcBody set cond k s = .next (advancePc (writeX k (readSR (selectBank s.cfg s.ctx) s)
      (afterReadSR (selectBank s.cfg s.ctx) s))) := by
  rcases mrcBody_cases set cond k s with ⟨f, h, -⟩ | ⟨-, h, -⟩ | ⟨-, -, h⟩
  · rw [readRaises_eq_none.2 ha] at h; cases h
  · rw [hp] at h; cases h
  · exact h

/-- A write that rule R109 lets through, within the premises, is the write of the selected copy. -/
theorem mcrBody_next {set : ISet} {cond : Cond} {k : Fin 15} {s : State} (ha : writeAllowed s.cfg s.ctx = true)
    (hp : premises s.cfg s.ctx = true) :
    mcrBody set cond k s = .next (advancePc (writeSR (selectBank s.cfg s.ctx) (readX k s) s)) := by
  rcases mcrBody_cases set cond k s with ⟨f, h, -⟩ | ⟨-, h, -⟩ | ⟨-, -, h⟩
  · rw [writeRaises_eq_none.2 ha] at h; cases h
  · rw [hp] at h; cases h
  · exact h

/-! ## The condition check -/

@[simp] theorem underCondition_passed {cond : Cond} {body : State → Outcome} {s : State}
    (h : conditionPassed s.ctx cond = true) : underCondition cond body s = body s := by
  simp [underCondition, h]

/-- Everything an instruction whose condition fails can do (rule R85). -/
theorem underCondition_failed {cond : Cond} {body : State → Outcome} {s : State}
    (h : conditionPassed s.ctx cond = false) :
    underCondition cond body s = .next (advancePc s) ∨
    (∃ f, body s = .fault f ∧
      (underCondition cond body s = .fault f ∨
        underCondition cond body s = .next (advancePc { s with draws := s.draws + 1 }))) := by
  unfold underCondition
  rw [h]
  cases hb : body s with
  | fault f => right; refine ⟨f, rfl, ?_⟩; by_cases hc : Config.condFailRaises s.draws = true <;> simp [hc, raise]
  | next _ => simp
  | refused _ => simp

/-! ## The instructions -/

/-- The body of an instruction: the read or the write. -/
def bodyOf (i : Instr) (c : Cond) (k : Fin 15) : State → Outcome :=
  if i.isRead then mrcBody i.iset c k else mcrBody i.iset c k

/-- The four meanings in one form. -/
theorem exec_eq (i : Instr) (s : State) :
    exec i s = withRt i.iset i.rt fun k => underCondition (condOf s.ctx i) (bodyOf i (condOf s.ctx i) k) s := by
  cases i <;> rfl

/-- An instruction that names a register runs under its condition. -/
theorem exec_of_rtIndex {i : Instr} {s : State} {k : Fin 15} (h : rtIndex i.iset i.rt = some k) :
    exec i s = underCondition (condOf s.ctx i) (bodyOf i (condOf s.ctx i) k) s := by
  rw [exec_eq, withRt, h]

/-- An instruction that names no register is refused. -/
theorem exec_of_rtIndex_none {i : Instr} {s : State} (h : rtIndex i.iset i.rt = none) :
    exec i s = .refused (.rtRefused i.rt) := by
  rw [exec_eq, withRt, h]

/-- A well-formed read whose condition passes is the body of MRC. -/
theorem exec_read {i : Instr} {s : State} {k : Fin 15} (hi : i.isRead = true) (hw : i.wf = true)
    (hk : i.rt.val = k.val) (hc : conditionPassed s.ctx (condOf s.ctx i) = true) :
    exec i s = mrcBody i.iset (condOf s.ctx i) k s := by
  obtain ⟨k', h⟩ := rtIndex_of_wf hw
  have : k' = k := Fin.ext ((rtIndex_eq_some.1 h).1.symm.trans hk)
  subst this
  rw [exec_of_rtIndex h, underCondition_passed hc, bodyOf, if_pos hi]

/-- A well-formed write whose condition passes is the body of MCR. -/
theorem exec_write {i : Instr} {s : State} {k : Fin 15} (hi : i.isRead = false) (hw : i.wf = true)
    (hk : i.rt.val = k.val) (hc : conditionPassed s.ctx (condOf s.ctx i) = true) :
    exec i s = mcrBody i.iset (condOf s.ctx i) k s := by
  obtain ⟨k', h⟩ := rtIndex_of_wf hw
  have : k' = k := Fin.ext ((rtIndex_eq_some.1 h).1.symm.trans hk)
  subst this
  rw [exec_of_rtIndex h, underCondition_passed hc, bodyOf, if_neg (by simp [hi])]

/-- What an instruction raises, its checks raise. -/
theorem exec_fault_cases {i : Instr} {s : State} {f : Fault} (h : exec i s = .fault f) :
    ∃ k, rtIndex i.iset i.rt = some k ∧
      ((i.isRead = true ∧ readRaises s.cfg s.ctx (issOf s.cfg i.iset true (condOf s.ctx i) k) = some f) ∨
        (i.isRead = false ∧ writeRaises s.cfg s.ctx (issOf s.cfg i.iset false (condOf s.ctx i) k) = some f)) := by
  cases hk : rtIndex i.iset i.rt with
  | none => rw [exec_of_rtIndex_none hk] at h; cases h
  | some k =>
    refine ⟨k, rfl, ?_⟩
    rw [exec_of_rtIndex hk] at h
    have hb : bodyOf i (condOf s.ctx i) k s = .fault f := by
      cases hc : conditionPassed s.ctx (condOf s.ctx i) with
      | true => rwa [underCondition_passed hc] at h
      | false =>
        rcases underCondition_failed (body := bodyOf i (condOf s.ctx i) k) hc with e | ⟨f', hf, e | e⟩ <;>
          rw [e] at h <;> cases h
        exact hf
    cases hi : i.isRead with
    | true =>
      rw [bodyOf, if_pos hi] at hb
      rcases mrcBody_cases i.iset (condOf s.ctx i) k s with ⟨f', h, e⟩ | ⟨-, -, e⟩ | ⟨-, -, e⟩ <;> rw [e] at hb <;> cases hb
      exact .inl ⟨rfl, h⟩
    | false =>
      rw [bodyOf, if_neg (by simp [hi])] at hb
      rcases mcrBody_cases i.iset (condOf s.ctx i) k s with ⟨f', h, e⟩ | ⟨-, -, e⟩ | ⟨-, -, e⟩ <;> rw [e] at hb <;> cases hb
      exact .inr ⟨rfl, h⟩

/-- Everything an instruction that answers a next state can have done. -/
theorem exec_next_cases {i : Instr} {s t : State} (h : exec i s = .next t) :
    (conditionPassed s.ctx (condOf s.ctx i) = false ∧
      (t = advancePc s ∨ t = advancePc { s with draws := s.draws + 1 })) ∨
    (∃ k, rtIndex i.iset i.rt = some k ∧ conditionPassed s.ctx (condOf s.ctx i) = true ∧
      premises s.cfg s.ctx = true ∧
      ((i.isRead = true ∧ readAllowed s.cfg s.ctx = true ∧
          t = advancePc (writeX k (readSR (selectBank s.cfg s.ctx) s) (afterReadSR (selectBank s.cfg s.ctx) s))) ∨
        (i.isRead = false ∧ writeAllowed s.cfg s.ctx = true ∧
          t = advancePc (writeSR (selectBank s.cfg s.ctx) (readX k s) s)))) := by
  cases hk : rtIndex i.iset i.rt with
  | none => rw [exec_of_rtIndex_none hk] at h; cases h
  | some k =>
    rw [exec_of_rtIndex hk] at h
    cases hc : conditionPassed s.ctx (condOf s.ctx i) with
    | false =>
      left
      refine ⟨rfl, ?_⟩
      rcases underCondition_failed (body := bodyOf i (condOf s.ctx i) k) hc with e | ⟨f, -, e | e⟩ <;>
        rw [e] at h <;> cases h
      · exact .inl rfl
      · exact .inr rfl
    | true =>
      right
      rw [underCondition_passed hc] at h
      refine ⟨k, rfl, rfl, ?_⟩
      cases hi : i.isRead with
      | true =>
        rw [bodyOf, if_pos hi] at h
        rcases mrcBody_cases i.iset (condOf s.ctx i) k s with ⟨f, -, e⟩ | ⟨-, -, e⟩ | ⟨ha, hp, e⟩ <;> rw [e] at h <;> cases h
        exact ⟨hp, .inl ⟨rfl, ha, rfl⟩⟩
      | false =>
        rw [bodyOf, if_neg (by simp [hi])] at h
        rcases mcrBody_cases i.iset (condOf s.ctx i) k s with ⟨f, -, e⟩ | ⟨-, -, e⟩ | ⟨ha, hp, e⟩ <;> rw [e] at h <;> cases h
        exact ⟨hp, .inr ⟨rfl, ha, rfl⟩⟩

end Sys2Proof.Machine
end

