-- ==== Sys2Proof/Laws/PerInstr.lean ====
section
/-! SUPPORT. Statements about every instruction as syntax, one lemma per constructor. -/

namespace Sys2Proof.Laws.SelectionFields

/-- An instruction's word holds the fixed bits and the five selection values of its row of spec/opcode_table.json
(rules R60, R62, R63). -/
def Statement (i : Instr) : Prop :=
  (fieldsOf (encode i)).isMrcMcr = true ∧ (fieldsOf (encode i)).selectsTtbcr2 = true ∧
    (fieldsOf (encode i)).l = (if i.isRead then 1#1 else 0#1) ∧ (fieldsOf (encode i)).rt.toNat = i.rt.val

theorem mrcA32 (c : Cond) (t : RegNum) : Statement (.mrcA32 c t) := by
  cases c <;> revert t <;> unfold Statement <;> decide

theorem mcrA32 (c : Cond) (t : RegNum) : Statement (.mcrA32 c t) := by
  cases c <;> revert t <;> unfold Statement <;> decide

theorem mrcT32 (t : RegNum) : Statement (.mrcT32 t) := by
  revert t; unfold Statement; decide

theorem mcrT32 (t : RegNum) : Statement (.mcrT32 t) := by
  revert t; unfold Statement; decide

end Sys2Proof.Laws.SelectionFields
end

