-- ==== Sys2Proof/Laws/Step.lean ====
section
/-! SUPPORT. What one step can do, and what one move of the environment does to each field of the state. -/

namespace Sys2Proof.Machine

/-- Everything a step that answers a next state can have done: a move of another agent, or an instruction. -/
theorem step_next_cases {s t : State} (h : step s = .next t) :
    (∃ m rest, s.schedule = .env m :: rest ∧ applyMove m { s with schedule := rest } = .next t) ∨
    (∃ i rest, (s.schedule = .pe :: rest ∨ s.schedule = [] ∧ rest = []) ∧ fetchInstr s = .instr i ∧
      exec i { s with schedule := rest } = .next t) := by
  have pe : ∀ u : State, peStep u = .next t → ∃ i, fetchInstr u = .instr i ∧ exec i u = .next t := by
    intro u hu
    unfold peStep at hu
    split at hu
    · exact ⟨_, ‹_›, hu⟩
    · cases hu
    · cases hu
  unfold step at h
  split at h
  next hs =>
    obtain ⟨i, hf, he⟩ := pe s h
    refine .inr ⟨i, [], .inr ⟨hs, rfl⟩, hf, ?_⟩
    rw [← hs]
    exact he
  next rest hs =>
    obtain ⟨i, hf, he⟩ := pe _ h
    exact .inr ⟨i, rest, .inl hs, hf, he⟩
  next m rest hs => exact .inl ⟨m, rest, hs, h⟩

/-- A scheduled move of another agent is that move. -/
theorem step_env {s : State} {m : Move} {rest : List Turn} (h : s.schedule = .env m :: rest) :
    step s = applyMove m { s with schedule := rest } := by
  simp [step, h]

/-- Everything a translation does: its result, and at most one draw. -/
theorem translateWith_cases (q : WalkRequest) (b : Bank) (vs : List View) (s : State) :
    (q.regime = .other ∧ translateWith q b vs s = { s with lastWalk := some (walkUntouched q) }) ∨
    (q.regime = .pl10Stage1 ∧ translateWith q b vs s =
      { s with
        lastWalk := some (walkResult s.cfg b q (viewEff s.cfg (pickView vs (currentView s b) s.draws) s.draws))
        draws := s.draws + 1 }) := by
  unfold translateWith
  cases hq : q.regime
  · exact .inr ⟨rfl, rfl⟩
  · exact .inl ⟨rfl, rfl⟩

/-- The view a translation picks is one it may use, or the current one. -/
theorem pickView_mem {vs : List View} {d : View} {k : Nat} (h : vs ≠ []) : pickView vs d k ∈ vs := by
  have hl : 0 < vs.length := List.length_pos_iff.2 h
  have hlt : Config.walkChoice k % vs.length < vs.length := Nat.mod_lt _ hl
  rw [pickView, List.getD_eq_getElem _ _ hlt]
  exact List.getElem_mem hlt

theorem Cell.views_ne_nil {a : Bool} {k : Cell} : k.views a ≠ [] := by simp [Cell.views]

/-- What a translation that may be served from a TLB may use (rules R49, R51). -/
theorem mem_tlbViews {s : State} {b : Bank} {v : View} :
    v ∈ tlbViews s b ↔ v ∈ (s.cell b).views (active s.cfg s.ctx b) ∨ v ∈ (s.cell b).cached := List.mem_append

theorem tlbViews_ne_nil {s : State} {b : Bank} : tlbViews s b ≠ [] := by simp [tlbViews, walkViews, Cell.views]

/-- The `Eff` word of a view that a walk may use (rule R28). -/
theorem viewEff_of_walkView {g : Config} {c : Ctx} {b : Bank} {v : View} (h : v.active = active g c b) (k : Nat) :
    viewEff g v k = if active g c b = true then contentWord g v.content k &&& fieldMask g else 0#32 := by
  have hp : (present g && active g c b) = active g c b := by unfold active; cases present g <;> rfl
  simp only [viewEff, h, hp]

/-- Exactly what a TLB may hold of the cell of TTBCR2 and TTBCR2_NS after a reset: what it could, what a walk could use,
and, where the reset takes Secure translations over to it, the same of TTBCR2_S (rule R126, log entry 24). -/
theorem resetWith_srN_cached {s : State} {r : ResetInputs} {v : View} :
    v ∈ (resetWith r s).srN.cached ↔
      v ∈ s.srN.views (active s.cfg s.ctx (nBank s.cfg s.ctx)) ∨ v ∈ s.srN.cached ∨
        (e3a32 s.cfg s.ctx = true ∧ e3a32 s.cfg r.ctx = false ∧
          (v ∈ s.srS.views (active s.cfg s.ctx .secure) ∨ v ∈ s.srS.cached)) := by
  cases ho : e3a32 s.cfg s.ctx <;> cases hn : e3a32 s.cfg r.ctx <;> simp [resetWith, ho, hn]
  tauto

/-- The same of the cell of TTBCR2_S. -/
theorem resetWith_srS_cached {s : State} {r : ResetInputs} {v : View} :
    v ∈ (resetWith r s).srS.cached ↔
      v ∈ s.srS.views (active s.cfg s.ctx .secure) ∨ v ∈ s.srS.cached ∨
        (e3a32 s.cfg s.ctx = false ∧ e3a32 s.cfg r.ctx = true ∧
          (v ∈ s.srN.views (active s.cfg s.ctx (nBank s.cfg s.ctx)) ∨ v ∈ s.srN.cached)) := by
  cases ho : e3a32 s.cfg s.ctx <;> cases hn : e3a32 s.cfg r.ctx <;> simp [resetWith, ho, hn]
  tauto

/-- Within the premises an access that does not reach TTBCR2_S reaches the shared cell by its name of now (rule R82,
decision D4). -/
theorem nBank_of_selectBank {g : Config} {c : Ctx} (hp : premises g c = true) (hs : selectBank g c ≠ .secure) :
    nBank g c = selectBank g c := by
  simp only [premises, Bool.and_eq_true, Bool.or_eq_true, bne_iff_ne, ne_eq] at hp
  have h3 := hp.1.1.1.1.1.1
  unfold selectBank at hs ⊢
  unfold nBank
  by_cases he : c.el = .el3
  · have h3 := h3.resolve_left (not_not_intro he)
    cases hns : c.scrNS <;> simp [he, h3, hns] at hs ⊢
  · simp [he]

/-- A reset leaves in a TLB, for each Security state, all that its translations could use, whichever cell governs them
before and after (log entry 24). -/
theorem resetWith_keeps_tlbViews {s : State} {r : ResetInputs} {q : Security} {v : View}
    (h : v ∈ tlbViews s (walkBank s.cfg s.ctx q)) :
    v ∈ ((resetWith r s).cell (walkBank s.cfg r.ctx q)).cached := by
  rw [mem_tlbViews] at h
  cases ho : e3a32 s.cfg s.ctx <;> cases hn : e3a32 s.cfg r.ctx <;> cases q <;>
    simp [walkBank, nBank, resetWith, ho, hn] at h ⊢ <;> simp [h]

/-- A walk with nothing unsynchronised acts on the present content (rule R49). -/
theorem doWalk_synced {q : WalkRequest} {s : State} (hq : q.regime = .pl10Stage1)
    (h : (s.cell (walkBank s.cfg s.ctx q.security)).unsynced = []) :
    doWalk q s =
      { s with
        lastWalk := some (walkResult s.cfg (walkBank s.cfg s.ctx q.security) q
          (eff s (walkBank s.cfg s.ctx q.security)))
        draws := s.draws + 1 } := by
  simp [doWalk, translateWith, hq, walkViews, Cell.views, h, eff, currentView, pickView, Nat.mod_one]

/-- A translation with nothing unsynchronised and nothing cached acts on the present content (decision D14). -/
theorem doTranslate_synced {q : WalkRequest} {s : State} (hq : q.regime = .pl10Stage1)
    (h : (s.cell (walkBank s.cfg s.ctx q.security)).unsynced = [])
    (hc : (s.cell (walkBank s.cfg s.ctx q.security)).cached = []) :
    doTranslate q s =
      { s with
        lastWalk := some (walkResult s.cfg (walkBank s.cfg s.ctx q.security) q
          (eff s (walkBank s.cfg s.ctx q.security)))
        draws := s.draws + 1 } := by
  simp [doTranslate, translateWith, hq, tlbViews, walkViews, Cell.views, h, hc, eff, currentView, pickView, Nat.mod_one]

/-- A move leaves the implementation, memory and the schedule alone. -/
theorem applyMove_next_fixed {m : Move} {s t : State} (h : applyMove m s = .next t) :
    t.cfg = s.cfg ∧ t.mem = s.mem ∧ t.schedule = s.schedule := by
  cases m with
  | setContext c =>
    simp only [applyMove, setContext] at h
    split at h <;> cases h
    exact ⟨rfl, rfl, rfl⟩
  | writeTcr v =>
    cases h
    unfold writeTcr
    split <;> simp
  | readTcr =>
    cases h
    unfold readTcr
    split <;> exact ⟨rfl, rfl, rfl⟩
  | walk q =>
    cases h
    rcases translateWith_cases q (walkBank s.cfg s.ctx q.security) (walkViews s _) s with ⟨-, e⟩ | ⟨-, e⟩ <;>
      rw [doWalk, e] <;> exact ⟨rfl, rfl, rfl⟩
  | translate q =>
    cases h
    rcases translateWith_cases q (walkBank s.cfg s.ctx q.security) (tlbViews s _) s with ⟨-, e⟩ | ⟨-, e⟩ <;>
      rw [doTranslate, e] <;> exact ⟨rfl, rfl, rfl⟩
  | _ => cases h; exact ⟨rfl, rfl, rfl⟩

/-- A walk or a translation leaves every register and every context input alone. -/
theorem translateWith_fixed (q : WalkRequest) (b : Bank) (vs : List View) (s : State) :
    (translateWith q b vs s).srN = s.srN ∧ (translateWith q b vs s).srS = s.srS ∧ (translateWith q b vs s).x = s.x ∧
      (translateWith q b vs s).pc = s.pc ∧ (translateWith q b vs s).ctx = s.ctx := by
  rcases translateWith_cases q b vs s with ⟨-, e⟩ | ⟨-, e⟩ <;> rw [e] <;> exact ⟨rfl, rfl, rfl, rfl, rfl⟩

/-- An instruction leaves the implementation, the context, memory, the schedule and the environment's records alone. -/
theorem exec_next_fixed {i : Instr} {s t : State} (h : exec i s = .next t) :
    t.cfg = s.cfg ∧ t.ctx = s.ctx ∧ t.mem = s.mem ∧ t.schedule = s.schedule ∧ t.lastWalk = s.lastWalk ∧
      t.lastTcr = s.lastTcr := by
  rcases exec_next_cases h with ⟨-, e | e⟩ | ⟨k, -, -, -, ⟨-, -, e⟩ | ⟨-, -, e⟩⟩ <;> rw [e] <;> simp

end Sys2Proof.Machine
end

