-- ==== Sys2Proof/Tests/Slice0.lean ====
section
/-! SUPPORT. Small tests, with the expected results of 95_test_vectors.md (the vector is named in each docstring), the smoke
test of WellFormed, and for every obligation with hypotheses a witness that meets all of them together. -/

namespace Sys2Proof.Tests

open Sys2Proof.Machine

/-! ## Helpers -/

/-- General registers for the tests. -/
def regs : Vector Word 15 :=
  #v[0x12345678#32, 0xFFFFFFFF#32, 0xDEADBEEF#32, 0x00000600#32, 0x00000200#32, 0x00000400#32, 0#32, 0#32, 0#32, 0#32,
    0#32, 0#32, 0xFFF801FF#32, 0x00040000#32, 0x00080000#32]

/-- A cell that holds a value and has no past. -/
def cellOf (v : Word) : Cell := { content := .known v, unsynced := [], cached := [] }

/-- A machine of an implementation in a context, with 0x200 in TTBCR2 and TTBCR2_NS and 0x400 in TTBCR2_S. -/
def machineIn (g : Config) (c : Ctx) : State :=
  { State.reset with
    cfg := g, ctx := c, x := regs, pc := 0x8000#32, srN := cellOf 0x00000200#32, srS := cellOf 0x00000400#32 }

/-- The implementation of program P1. -/
def g0 : Config := configAtReset

/-- The context of vector ACC-6: EL1, no EL2, no EL3. -/
def c0 : Ctx := ctxAtReset

/-- The same in T32. -/
def c0T : Ctx := { c0 with exec := .aarch32 .t32 }

/-- The machine of vector ACC-6. -/
def s0 : State := machineIn g0 c0

/-- The same in T32. -/
def s0T : State := machineIn g0 c0T

/-- FEAT_AA32EL2, and EL1 under an EL2 that uses AArch32 (ACC-7 to ACC-9). -/
def gHyp : Config := { g0 with aa32EL2 := true, issFamily := true }

def cHyp : Ctx := { c0 with el2Enabled := true, el2UsingAArch32 := true }

/-- FEAT_AA64 and FEAT_AA64EL2, and EL1 under an EL2 that uses AArch64 (ACC-10 to ACC-12). -/
def gA64 : Config := { g0 with aa64 := true, aa64EL2 := true, issFamily := true }

def cA64 : Ctx := { c0 with el2Enabled := true }

/-- EL3 implemented and using AArch32 (ACC-20 to ACC-25). -/
def gE3 : Config := { g0 with haveEL3 := true, aa32EL3 := true, aa32EL2 := true }

def cE3 : Ctx := { c0 with el := .el3, el3UsingAArch32 := true }

/-- What the tests look at of an outcome. -/
inductive Seen where
  | done (x0 x3 : Word) (n s : Content) (pc : Word)
  | undefined (c : UndefCause)
  | a64 (c : TrapCause) (ec : Nat)
  | hyp (c : TrapCause) (ec : Nat)
  | stopped
  deriving DecidableEq, Repr

def seen : Outcome → Seen
  | .next t => .done t.x[0] t.x[3] t.srN.content t.srS.content t.pc
  | .fault (.undefined c) => .undefined c
  | .fault (.trapToEL2A64 c ec _) => .a64 c ec
  | .fault (.hypTrap c ec _) => .hyp c ec
  | .fault .noInstruction => .stopped
  | .refused _ => .stopped

/-- `MRC p15, 0, r3, c2, c0, 3` and `MCR p15, 0, r0, c2, c0, 3` in one context. -/
def both (g : Config) (c : Ctx) : Seen × Seen :=
  (seen (exec (.mrcA32 .al 3) (machineIn g c)), seen (exec (.mcrA32 .al 0) (machineIn g c)))

/-- The MRC read the copy at 0x200 or 0x400. -/
def reads (v : Word) : Seen := .done 0x12345678#32 v (.known 0x00000200#32) (.known 0x00000400#32) 0x8004#32

/-- The MCR of 0x12345678 wrote TTBCR2 or TTBCR2_NS. -/
def writesN : Seen :=
  .done 0x12345678#32 0x00000600#32 (.known 0x00045600#32) (.known 0x00000400#32) 0x8004#32

/-- The MCR of 0x12345678 wrote TTBCR2_S. -/
def writesS : Seen :=
  .done 0x12345678#32 0x00000600#32 (.known 0x00000200#32) (.known 0x00045600#32) 0x8004#32

/-! ## Encodings -/

/-- ENC-4 and ENC-31. -/
theorem test_decode_mrcA32 :
    decodeA32 0b11101110000100100011111101110000#32 = .instr (.mrcA32 .al 3) ∧
    decodeA32 0b00001110000100100010111101110000#32 = .instr (.mrcA32 .eq 2) := by decide

/-- ENC-16 and ENC-36. -/
theorem test_decode_mcrA32 :
    decodeA32 0b11101110000000100000111101110000#32 = .instr (.mcrA32 .al 0) ∧
    decodeA32 0b10111110000000100010111101110000#32 = .instr (.mcrA32 .lt 2) := by decide

/-- ENC-38, as bytes in memory (decision D15). -/
theorem test_decode_mrcT32 :
    decode .t32 [0x12, 0xEE, 0x70, 0x7F] = (.instr (.mrcT32 7), []) := by decide

/-- ENC-40, as bytes in memory (decision D15). -/
theorem test_decode_mcrT32 :
    decode .t32 [0x02, 0xEE, 0x70, 0xCF] = (.instr (.mcrT32 12), []) := by decide

/-- ENC-1 and ENC-39, encoded. -/
theorem test_encode_bytes :
    encodeBytes (.mrcA32 .al 0) = [0x70, 0x0F, 0x12, 0xEE] ∧
    encodeBytes (.mcrT32 0) = [0x02, 0xEE, 0x70, 0x0F] := by decide

/-- ENC-41 to ENC-47. -/
theorem test_decode_refuses_neighbours :
    ([0xEE120F50#32, 0xEE120F10#32, 0xEE120F71#32, 0xEE130F70#32, 0xEE320F70#32, 0xEE120E70#32].map decodeA32
      = List.replicate 6 (.reject .otherSystemRegister)) ∧
    decodeA32 0xEE120F60#32 = .reject .notMrcMcr := by decide

/-- ENC-48 to ENC-51, and ENC-14. -/
theorem test_decode_refuses_operands :
    decodeA32 0xFE120F70#32 = .reject .condFifteen ∧ decodeA32 0xEE12FF70#32 = .reject .rtFifteen ∧
    decodeA32 0xEE02FF70#32 = .reject .rtFifteen ∧ decodeT32 0xEE12DF70#32 = .reject .rtThirteen ∧
    decodeA32 0xEE12DF70#32 = .instr (.mrcA32 .al 13) := by decide

/-- Three bytes are no instruction. -/
theorem test_decode_refuses_truncated : (decode .a32 [0x70, 0x0F, 0x12]).1 = .reject .truncated := by decide

/-! ## WellFormed (decision D8) -/

theorem test_wf_rt_fifteen :
    (Instr.mcrA32 .al 15).rtNotFifteen = false ∧ (Instr.mcrA32 .al 15).wf = false := by decide

theorem test_wf_rt_thirteen_in_t32 :
    (Instr.mrcT32 13).rtNotThirteenInT32 = false ∧ (Instr.mrcT32 13).wf = false ∧
    (Instr.mrcA32 .al 13).wf = true := by decide

/-! ## Fields and effective values -/

/-- The fields of a value in the order of section 2.2 of 95_test_vectors.md: HWU162 first, HPD0 last. -/
def fieldRow (w : Word) : List Bool :=
  (HwBit.all.map fun b => fieldValue (.hwu .ttbr1 b) w) ++ (HwBit.all.map fun b => fieldValue (.hwu .ttbr0 b) w) ++
    [fieldValue (.hpd .ttbr1) w, fieldValue (.hpd .ttbr0) w]

/-- FLD-4, FLD-8, FLD-11, FLD-12 and FLD-14. -/
theorem test_fields :
    fieldRow 0x00000800#32 = [false, false, false, false, false, false, false, true, false, false] ∧
    fieldRow 0x00008000#32 = [false, false, false, true, false, false, false, false, false, false] ∧
    fieldRow 0x00040000#32 = [true, false, false, false, false, false, false, false, false, false] ∧
    fieldRow 0x0007FE00#32 = List.replicate 10 true ∧ fieldRow 0x00080000#32 = List.replicate 10 false := by decide

/-- What an MRC returns after an MCR of a value (section 2.3 of 95_test_vectors.md). -/
def storedAndReadBack (hpds2 : Bool) (res0 v : Word) : Word :=
  readSR .plain (writeSR .plain v { s0 with cfg := { g0 with hpds2 := hpds2, res0Storage := res0 } })

/-- VAL-2, VAL-4, VAL-9, VAL-11, VAL-12, VAL-16 and VAL-17. -/
theorem test_write_then_read :
    storedAndReadBack true 0#32 0xFFFFFFFF#32 = 0x0007FE00#32 ∧
    storedAndReadBack true 0#32 0x12345678#32 = 0x00045600#32 ∧
    storedAndReadBack true 0x000001FF#32 0x12345678#32 = 0x00045678#32 ∧
    storedAndReadBack true 0xFFF801FF#32 0x12345678#32 = 0x12345678#32 ∧
    storedAndReadBack false 0#32 0xFFFFFFFF#32 = 0x00000600#32 ∧
    storedAndReadBack false 0x000001FF#32 0xFFFFFFFF#32 = 0x000007FF#32 ∧
    storedAndReadBack false 0xFFFFF9FF#32 0x0007FE00#32 = 0x0007FE00#32 := by decide

/-- `Eff`, and the effective HWU bits 62, 61, 60, 59 of both halves (section 2.4 of 95_test_vectors.md). -/
def effRow (hpds2 : Bool) (stored : Word) (eae t2e : Bool) : Word × List Bool × List Bool :=
  let s := { s0 with cfg := { g0 with hpds2 := hpds2, res0Storage := 0xFFFFFFFF#32 },
                     ctx := { c0 with ttbcr := { eae := eae, t2e := t2e } }, srN := cellOf stored }
  let e := eff s .plain
  (e, HwBit.all.map fun b => effHwu s.cfg .ttbr0 b e, HwBit.all.map fun b => effHwu s.cfg .ttbr1 b e)

/-- EFF-2, EFF-3, EFF-8, EFF-11, EFF-12, EFF-13, EFF-15 and EFF-17. -/
theorem test_effective_values :
    effRow true 0x0007FE00#32 true false = (0#32, List.replicate 4 false, List.replicate 4 false) ∧
    effRow true 0x0007FE00#32 false true = (0#32, List.replicate 4 false, List.replicate 4 false) ∧
    effRow true 0x0007F800#32 true true = (0x0007F800#32, List.replicate 4 false, List.replicate 4 false) ∧
    effRow true 0x00044200#32 true true = (0x00044200#32, [true, false, false, false], List.replicate 4 false) ∧
    effRow true 0x00004400#32 true true = (0x00004400#32, List.replicate 4 false, List.replicate 4 false) ∧
    effRow false 0x0007FE00#32 true true = (0x00000600#32, List.replicate 4 false, List.replicate 4 false) ∧
    effRow true 0xFFFFFFFF#32 true true = (0x0007FE00#32, List.replicate 4 true, List.replicate 4 true) ∧
    effRow true 0x00008A00#32 true true = (0x00008A00#32, [false, false, false, true], List.replicate 4 false) := by
  decide

/-- The Table descriptor of the walker vectors. -/
def dFull : HierBits := { apTable := 0b11#2, xnTable := true, pxnTable := true }

/-- WLK-1 to WLK-5: through TTBR0, with the `Eff` words of EFF-16, EFF-6, EFF-7, EFF-11 and EFF-2. -/
theorem test_walker_hooks :
    ([0#32, 0x00000200#32, 0x00000400#32, 0x00044200#32, 0#32].map fun e =>
      (decide (hierBits .ttbr0 e dFull = dFull), hwMayUse g0 .ttbr0 .b62 e))
    = [(true, false), (false, false), (true, false), (false, true), (true, false)] ∧
    hierBits .ttbr0 0x00000200#32 dFull = { apTable := 0#2, xnTable := false, pxnTable := false } := by decide

/-! ## Accesses (section 2.5 of 95_test_vectors.md) -/

/-- ACC-1, ACC-2, ACC-4 and ACC-5. -/
theorem test_acc_undefined :
    both { g0 with aa32HPD := false } c0 = (.undefined .absent, .undefined .absent) ∧
    both { g0 with aa32EL1 := false } { c0 with el := .el2 } = (.undefined .absent, .undefined .absent) ∧
    both g0 { c0 with el := .el0 } = (.undefined .el0, .undefined .el0) ∧
    both gHyp { cHyp with el := .el0, hstrT2 := true, hcrTvm := true, hcrTrvm := true }
      = (.undefined .el0, .undefined .el0) := by decide

/-- ACC-7, ACC-8, ACC-9 and ACC-27. -/
theorem test_acc_hyp_trap :
    both gHyp { cHyp with hstrT2 := true } = (.hyp .t2 3, .hyp .t2 3) ∧
    both gHyp { cHyp with hcrTvm := true } = (reads 0x00000200#32, .hyp .tvm 3) ∧
    both gHyp { cHyp with hcrTrvm := true } = (.hyp .trvm 3, writesN) ∧
    both gHyp { cHyp with hstrT2 := true, hcrTvm := true, hcrTrvm := true } = (.hyp .t2 3, .hyp .t2 3) := by decide

/-- ACC-10, ACC-11 and ACC-12. -/
theorem test_acc_trap_to_a64_el2 :
    both gA64 { cA64 with hstrEL2T2 := true } = (.a64 .t2 3, .a64 .t2 3) ∧
    both gA64 { cA64 with hcrEL2Tvm := true } = (reads 0x00000200#32, .a64 .tvm 3) ∧
    both gA64 { cA64 with hcrEL2Trvm := true } = (.a64 .trvm 3, writesN) := by decide

/-- ACC-6, ACC-14, ACC-18, ACC-16, ACC-20, ACC-21, ACC-22, ACC-23 and ACC-24. -/
theorem test_acc_untrapped_and_locked :
    both g0 c0 = (reads 0x00000200#32, writesN) ∧
    both gA64 { cA64 with hstrT2 := true, hcrTvm := true, hcrTrvm := true } = (reads 0x00000200#32, writesN) ∧
    both gHyp { cHyp with el := .el2, hstrT2 := true, hcrTvm := true, hcrTrvm := true }
      = (reads 0x00000200#32, writesN) ∧
    both gE3 { cHyp with el3UsingAArch32 := true } = (reads 0x00000200#32, writesN) ∧
    both gE3 cE3 = (reads 0x00000400#32, writesS) ∧
    both gE3 { cE3 with cp15sdisable := .high } = (reads 0x00000400#32, .undefined .cp15sdisable) ∧
    both gE3 { cE3 with cp15sdisable2 := .high } = (reads 0x00000400#32, .undefined .cp15sdisable2) ∧
    both gE3 { cE3 with cp15sdisable := .high, cp15sdisable2 := .high }
      = (reads 0x00000400#32, .undefined .cp15sdisable) ∧
    both gE3 { cE3 with scrNS := true, cp15sdisable := .high, cp15sdisable2 := .high }
      = (reads 0x00000200#32, writesN) := by decide

/-- The syndrome detail of an outcome. -/
def issSeen : Outcome → Option (BitVec 25)
  | .fault (.trapToEL2A64 _ _ iss) => some iss
  | .fault (.hypTrap _ _ iss) => some iss
  | _ => none

/-- SYN-1, SYN-4 and SYN-5, and the whole syndrome of SYN-1. -/
theorem test_syndrome :
    issSeen (exec (.mrcA32 .al 0) (machineIn gHyp { cHyp with hstrT2 := true })) = some 0x1E60801#25 ∧
    issSeen (exec (.mcrA32 .al 14) (machineIn gA64 { cA64 with hstrEL2T2 := true })) = some 0x1E609C0#25 ∧
    issSeen (exec (.mrcA32 .ne 3) (machineIn gHyp { cHyp with hstrT2 := true })) = some 0x1160861#25 ∧
    familySyndrome 0x03#6 0x1E60801#25 = 0x0FE60801#32 := by decide

/-! ## Steps -/

/-- Program P1 of 95_test_vectors.md in memory at its pc. -/
def p1 : State :=
  { s0 with
    srN := Cell.afterReset
    mem := Memory.writeBytes 0x8000#32 0 [0x70, 0x1F, 0x02, 0xEE, 0x70, 0x2F, 0x12, 0xEE] [] }

/-- P1 step 1. -/
theorem test_p1_step1 :
    (match step p1 with | .next t => some (t.srN.content, t.pc, t.x[1]) | _ => none)
      = some (.known 0x0007FE00#32, 0x8004#32, 0xFFFFFFFF#32) := by decide

/-- P1 step 2, from the state P1 gives for it. -/
theorem test_p1_step2 :
    (match step { p1 with srN := cellOf 0x0007FE00#32, pc := 0x8004#32 } with
      | .next t => some (t.x[2], t.pc, t.x[1]) | _ => none)
      = some (0x0007FE00#32, 0x8008#32, 0xFFFFFFFF#32) := by decide

/-- A failed condition moves the pc on and reads nothing (R85): EQ does not pass with all flags 0. -/
theorem test_failed_condition :
    seen (exec (.mrcA32 .eq 3) s0) =
      .done 0x12345678#32 0x00000600#32 (.known 0x00000200#32) (.known 0x00000400#32) 0x8004#32 := by decide

/-- A T32 MRC in an IT block whose condition fails (R63, R85). -/
theorem test_failed_it_condition :
    seen (exec (.mrcT32 3) (machineIn g0 { c0T with itCond := some .eq })) =
      .done 0x12345678#32 0x00000600#32 (.known 0x00000200#32) (.known 0x00000400#32) 0x8004#32 := by decide

/-- RST-7: a written value does not survive a reset. -/
theorem test_reset_forgets :
    (resetWith { ctx := c0, x := regs, pc := 0#32 } s0).srN.content = .unknown := by decide

/-- FLD-2 under the AArch64 mapping: TCR_EL1 = 0x0000020000000000 is HPD0 (R13). -/
theorem test_tcr_mapping : readSR .plain (writeTcr 0x0000020000000000#64 s0) = 0x00000200#32 := by decide

/-! ## The interface: every row of the opcode table runs as the first instruction after reset -/

theorem test_table_words_decode :
    decodeTableWord 32 0x0E120F70 = some (.mrcA32 .eq 0) ∧ decodeTableWord 32 0x0E020F70 = some (.mcrA32 .eq 0) ∧
    decodeTableWord 32 0xEE120F70 = some (.mrcT32 0) ∧ decodeTableWord 32 0xEE020F70 = some (.mcrT32 0) := by decide

theorem test_table_words_run :
    ([0x0E120F70, 0x0E020F70, 0xEE120F70, 0xEE020F70].map fun w =>
      match step (State.reset.withFetchWord 32 w) with | .next t => t.pc | _ => 0#32)
      = List.replicate 4 4#32 := by decide

/-! ## Witnesses: the hypotheses of each obligation are met together -/

theorem witness_DecodeOfEncodedBytes :
    (Instr.mrcA32 .al 14).wf = true ∧ (Instr.mcrA32 .eq 13).wf = true ∧ (Instr.mrcT32 14).wf = true ∧
    (Instr.mcrT32 12).wf = true := by decide

theorem witness_EncodeOfDecodedWord :
    decodeWord .a32 0x0E12EF70#32 = .instr (.mrcA32 .eq 14) ∧ decodeWord .t32 0xEE02EF70#32 = .instr (.mcrT32 14) := by
  decide

/-- One word for each disjunct, with every other field that of TTBCR2. -/
theorem witness_NeighbouringWordsRefused :
    (0xEE120E70#32).extractLsb' 8 4 ≠ 0b1111#4 ∧ (0xEE320F70#32).extractLsb' 21 3 ≠ 0b000#3 ∧
    (0xEE130F70#32).extractLsb' 16 4 ≠ 0b0010#4 ∧ (0xEE120F71#32).extractLsb' 0 4 ≠ 0b0000#4 ∧
    (0xEE120F50#32).extractLsb' 5 3 ≠ 0b011#3 ∧ (0xFE120F70#32).extractLsb' 28 4 = 15#4 ∧
    (0xEE12FF70#32).extractLsb' 12 4 = 15#4 ∧ (0xEE12DF70#32).extractLsb' 12 4 = 13#4 := by decide

theorem witness_IllFormedOperandRefused :
    (Instr.mrcA32 .al 15).wf = false ∧ (Instr.mcrT32 15).wf = false ∧ (Instr.mcrT32 13).wf = false := by decide

/-- With an empty schedule, and with the PE's turn first in it. -/
theorem witness_StepRunsDecodedInstruction :
    p1.ctx.exec = .aarch32 .a32 ∧ fetchBytes p1.pc p1.mem = some [0x70, 0x1F, 0x02, 0xEE] ∧
    (decode .a32 [0x70, 0x1F, 0x02, 0xEE]).1 = .instr (.mcrA32 .al 1) ∧ p1.schedule = [] ∧
    ({ p1 with schedule := [.pe, .env .contextSync] } : State).schedule = .pe :: [.env .contextSync] := by decide

/-- One state for each of the three clauses, and a schedule with the PE's turn first. -/
theorem witness_StepStopsWithoutInstruction :
    ({ s0 with ctx := { c0 with exec := .aarch64 } } : State).ctx.exec = .aarch64 ∧
    (s0.schedule = [] ∧ s0.ctx.exec = .aarch32 .a32 ∧ fetchBytes s0.pc s0.mem = none) ∧
    (let s := { s0 with mem := Memory.writeBytes 0x8000#32 0 [0x02, 0x0C, 0x80, 0xE3] [] };
      s.schedule = [] ∧ s.ctx.exec = .aarch32 .a32 ∧ fetchBytes s.pc s.mem = some [0x02, 0x0C, 0x80, 0xE3] ∧
      (decode .a32 [0x02, 0x0C, 0x80, 0xE3]).1 = .reject .notMrcMcr) ∧
    (∃ rest, ({ s0 with schedule := [.pe, .env .contextSync] } : State).schedule = .pe :: rest) :=
  ⟨by decide, by decide, by decide, ⟨_, rfl⟩⟩

theorem witness_PlacedWordRunsNext :
    decodeTableWord 32 0xBE02EF70 = some (.mcrA32 .lt 14) ∧ decodeTableWord 32 0xEE12EF70 = some (.mrcT32 14) := by
  decide

/-- EL1, and EL3 with the register still UNKNOWN; register numbers at the ends of both ranges. -/
theorem witness_MrcCompletesWithSelectedCopy :
    readAllowed s0.cfg s0.ctx = true ∧ premises s0.cfg s0.ctx = true ∧ conditionPassed s0.ctx .ne = true ∧
    conditionPassed s0T.ctx (s0T.ctx.itCond.getD .al) = true ∧
    (let s := { machineIn gE3 cE3 with srS := Cell.afterReset };
      readAllowed s.cfg s.ctx = true ∧ premises s.cfg s.ctx = true ∧
      (s.cell (selectBank s.cfg s.ctx)).content = .unknown) ∧
    ((14 : RegNum).val = (14 : Fin 15).val ∧ (14 : RegNum) ≠ 13) := by decide

theorem witness_McrCompletesWithWrittenCopy :
    writeAllowed s0.cfg s0.ctx = true ∧ premises s0.cfg s0.ctx = true ∧ conditionPassed s0.ctx .ne = true ∧
    conditionPassed s0T.ctx (s0T.ctx.itCond.getD .al) = true ∧
    (let s := machineIn gE3 cE3;
      writeAllowed s.cfg s.ctx = true ∧ premises s.cfg s.ctx = true ∧ selectBank s.cfg s.ctx = .secure) ∧
    ((14 : RegNum).val = (14 : Fin 15).val ∧ (14 : RegNum) ≠ 13) := by decide

theorem witness_MrcFrame :
    (∃ t, (Instr.mrcA32 .al 0).isRead = true ∧ exec (.mrcA32 .al 0) s0 = .next t) ∧
    (∃ t, (Instr.mrcT32 14).isRead = true ∧ exec (.mrcT32 14) s0T = .next t) ∧
    (∃ t, exec (.mrcA32 .eq 0) s0 = .next t) := ⟨⟨_, rfl, rfl⟩, ⟨_, rfl, rfl⟩, ⟨_, rfl⟩⟩

/-- The cell of TTBCR2, and that of TTBCR2_S. -/
theorem witness_McrFrame :
    (∃ t, (Instr.mcrA32 .al 0).isRead = false ∧ exec (.mcrA32 .al 0) s0 = .next t ∧
      selectBank s0.cfg s0.ctx ≠ .secure) ∧
    (∃ t, (Instr.mcrT32 14).isRead = false ∧ exec (.mcrT32 14) s0T = .next t) ∧
    (∃ t, exec (.mcrA32 .al 0) (machineIn gE3 cE3) = .next t ∧ selectBank gE3 cE3 = .secure) :=
  ⟨⟨_, rfl, rfl, by decide⟩, ⟨_, rfl, rfl⟩, ⟨_, rfl, by decide⟩⟩

/-- One context for each clause, and each of the three ways into the second. -/
theorem witness_SelectedCopyFollowsTable :
    (cHyp.el = .el1 ∧ gE3.haveEL3 = true ∧ gE3.aa32EL3 = true ∧
      ({ cHyp with el3UsingAArch32 := true } : Ctx).el3UsingAArch32 = true) ∧
    (c0.el = .el1 ∧ g0.haveEL3 = false ∧ ({ gE3 with aa32EL3 := false } : Config).aa32EL3 = false ∧
      ({ cHyp with el := .el2 } : Ctx).el3UsingAArch32 = false) ∧
    (cE3.el = .el3 ∧ cE3.scrNS = false ∧ ({ cE3 with scrNS := true } : Ctx).scrNS = true) ∧
    (present gE3 = true ∧ premises gE3 cE3 = true ∧ present g0 = true ∧ premises g0 c0 = true) := by decide

/-- One state for each of the three clauses; ACC-28 is the second. -/
theorem witness_AccessRightsExactly :
    (Instr.mrcA32 .al 0).wf = true ∧ conditionPassed c0 (condOf c0 (.mrcA32 .al 0)) = true ∧
    (accessAllowed g0 c0 (.mrcA32 .al 0) = true ∧ premises g0 c0 = true) ∧
    (let c := { cHyp with hstrT2 := true };
      conditionPassed c (condOf c (.mrcA32 .al 0)) = true ∧
      accessAllowed g0 c (.mrcA32 .al 0) = true ∧ premises g0 c = false) ∧
    (let c := { c0T with el := .el0 };
      (Instr.mcrT32 0).wf = true ∧ conditionPassed c (condOf c (.mcrT32 0)) = true ∧
      accessAllowed g0 c (.mcrT32 0) = false) := by decide

/-- With a body that would complete, and with one that would raise. -/
theorem witness_FailedConditionIsNoOpOrTheRaise :
    (Instr.mrcA32 .eq 0).wf = true ∧ conditionPassed c0 (condOf c0 (.mrcA32 .eq 0)) = false ∧
    (let c := { c0T with el := .el0, itCond := some .eq };
      (Instr.mcrT32 0).wf = true ∧ conditionPassed c (condOf c (.mcrT32 0)) = false ∧
      accessAllowed g0 c (.mcrT32 0) = false) := by decide

/-- The write from r1 and the read into r2 of program P1; also of one register, and across EL3. -/
theorem witness_ReadAfterWriteReturnsWritten :
    (Instr.mcrA32 .al 1).isRead = false ∧ (Instr.mcrA32 .al 1).wf = true ∧
    (Instr.mcrA32 .al 1).rt.val = (1 : Fin 15).val ∧ conditionPassed c0 (condOf c0 (.mcrA32 .al 1)) = true ∧
    (Instr.mrcT32 2).isRead = true ∧ (Instr.mrcT32 2).wf = true ∧ (Instr.mrcT32 2).rt.val = (2 : Fin 15).val ∧
    conditionPassed c0 (condOf c0 (.mrcT32 2)) = true ∧ writeAllowed g0 c0 = true ∧ readAllowed g0 c0 = true ∧
    premises g0 c0 = true ∧ writeAllowed gE3 cE3 = true ∧ readAllowed gE3 cE3 = true ∧ premises gE3 cE3 = true := by
  decide

theorem witness_WritingBackKeepsRegister :
    (s0.cell (selectBank s0.cfg s0.ctx)).content = .known 0x00000200#32 ∧
    (Instr.mcrA32 .al 5).isRead = false ∧ (Instr.mcrA32 .al 5).wf = true ∧
    conditionPassed s0.ctx (condOf s0.ctx (.mcrA32 .al 5)) = true ∧
    (Instr.mrcA32 .ne 5).isRead = true ∧ (Instr.mrcA32 .ne 5).wf = true ∧
    conditionPassed s0.ctx (condOf s0.ctx (.mrcA32 .ne 5)) = true ∧ (Instr.mcrA32 .al 5).rt = (Instr.mrcA32 .ne 5).rt ∧
    writeAllowed s0.cfg s0.ctx = true ∧ readAllowed s0.cfg s0.ctx = true ∧ premises s0.cfg s0.ctx = true := by decide

/-- RST-2: two reads into r0 and r1 right after reset. -/
theorem witness_UnknownCopyReadsAreFresh :
    (0 : Fin 15) ≠ 1 ∧ (Instr.mrcA32 .al 0).isRead = true ∧ (Instr.mrcA32 .al 0).wf = true ∧
    (Instr.mrcA32 .al 0).rt.val = (0 : Fin 15).val ∧ (Instr.mrcA32 .al 1).wf = true ∧
    (Instr.mrcA32 .al 1).rt.val = (1 : Fin 15).val ∧
    conditionPassed State.reset.ctx (condOf State.reset.ctx (.mrcA32 .al 0)) = true ∧
    conditionPassed State.reset.ctx (condOf State.reset.ctx (.mrcA32 .al 1)) = true ∧
    (State.reset.cell (selectBank State.reset.cfg State.reset.ctx)).content = .unknown ∧
    readAllowed State.reset.cfg State.reset.ctx = true ∧ premises State.reset.cfg State.reset.ctx = true := by decide

/-- The three clauses of AccessIgnoresTtbcrBits: a raise, a refusal, a completion. -/
theorem witness_AccessIgnoresTtbcrBits :
    seen (exec (.mrcA32 .al 0) (machineIn g0 { c0 with el := .el0 })) = .undefined .el0 ∧
    (∃ f, exec (.mrcA32 .al 15) s0 = .refused f) ∧ (∃ t, exec (.mcrA32 .al 0) s0 = .next t) :=
  ⟨by decide, ⟨_, rfl⟩, ⟨_, rfl⟩⟩

/-- One context for each of U1 to U4, with both signals HIGH for U3. -/
theorem witness_UndefinedInExactlyTheseCases :
    (Instr.mcrA32 .al 0).wf = true ∧
    (conditionPassed c0 (condOf c0 (.mcrA32 .al 0)) = true ∧
      ({ g0 with aa32HPD := false } : Config).aa32HPD = false) ∧
    (let c := { c0 with el := .el0 };
      conditionPassed c (condOf c (.mcrA32 .al 0)) = true ∧ present g0 = true ∧ c.el = .el0) ∧
    (let c := { cE3 with cp15sdisable := .high, cp15sdisable2 := .high };
      conditionPassed c (condOf c (.mcrA32 .al 0)) = true ∧ (Instr.mcrA32 .al 0).isRead = false ∧
      present gE3 = true ∧ c.el = .el3 ∧ c.scrNS = false ∧ c.cp15sdisable = .high) ∧
    (let c := { cE3 with cp15sdisable2 := .high };
      conditionPassed c (condOf c (.mcrA32 .al 0)) = true ∧ present gE3 = true ∧ c.el = .el3 ∧ c.scrNS = false ∧
      c.cp15sdisable = .low ∧ c.cp15sdisable2 = .high) := by decide

/-- A1, A2 and A3: the instruction is well formed, its condition passes, and it traps. -/
theorem witness_TrapToA64El2InExactlyTheseCases :
    (Instr.mrcA32 .al 0).wf = true ∧ (Instr.mcrA32 .al 0).wf = true ∧
    conditionPassed cA64 (condOf cA64 (.mrcA32 .al 0)) = true ∧
    (∃ iss, exec (.mrcA32 .al 0) (machineIn gA64 { cA64 with hstrEL2T2 := true })
      = .fault (.trapToEL2A64 .t2 0x03 iss)) ∧
    (∃ iss, exec (.mrcA32 .al 0) (machineIn gA64 { cA64 with hcrEL2Trvm := true })
      = .fault (.trapToEL2A64 .trvm 0x03 iss)) ∧
    (∃ iss, exec (.mcrA32 .al 0) (machineIn gA64 { cA64 with hcrEL2Tvm := true })
      = .fault (.trapToEL2A64 .tvm 0x03 iss)) :=
  ⟨rfl, rfl, by decide, ⟨_, rfl⟩, ⟨_, rfl⟩, ⟨_, rfl⟩⟩

/-- H1, H2 and H3. -/
theorem witness_HypTrapInExactlyTheseCases :
    (Instr.mrcA32 .al 0).wf = true ∧ (Instr.mcrA32 .al 0).wf = true ∧
    conditionPassed cHyp (condOf cHyp (.mrcA32 .al 0)) = true ∧
    (∃ iss, exec (.mrcA32 .al 0) (machineIn gHyp { cHyp with hstrT2 := true }) = .fault (.hypTrap .t2 0x03 iss)) ∧
    (∃ iss, exec (.mrcA32 .al 0) (machineIn gHyp { cHyp with hcrTrvm := true })
      = .fault (.hypTrap .trvm 0x03 iss)) ∧
    (∃ iss, exec (.mcrA32 .al 0) (machineIn gHyp { cHyp with hcrTvm := true }) = .fault (.hypTrap .tvm 0x03 iss)) :=
  ⟨rfl, rfl, by decide, ⟨_, rfl⟩, ⟨_, rfl⟩, ⟨_, rfl⟩⟩

/-- One step for each kind of trap. -/
theorem witness_EveryTrapCarriesCodeThree :
    (∃ why ec iss, step { p1 with cfg := gA64, ctx := { cA64 with hstrEL2T2 := true } }
      = .fault (.trapToEL2A64 why ec iss)) ∧
    (∃ why ec iss, step { p1 with cfg := gHyp, ctx := { cHyp with hcrTvm := true } }
      = .fault (.hypTrap why ec iss)) := ⟨⟨_, _, _, rfl⟩, ⟨_, _, _, rfl⟩⟩

theorem witness_FamilySyndromeDetail :
    (machineIn gHyp { cHyp with hstrT2 := true }).cfg.issFamily = true ∧
    (∃ why ec iss, exec (.mcrA32 .al 14) (machineIn gHyp { cHyp with hstrT2 := true })
      = .fault (.hypTrap why ec iss)) ∧
    (∃ why ec iss, exec (.mrcA32 .al 0) (machineIn gA64 { cA64 with hstrEL2T2 := true })
      = .fault (.trapToEL2A64 why ec iss)) := ⟨rfl, ⟨_, _, _, rfl⟩, ⟨_, _, _, rfl⟩⟩

/-- EL1, EL2 and EL0. -/
theorem witness_SecureCopyIsolatedBelowEl3 :
    (machineIn gE3 { cHyp with el3UsingAArch32 := true }).ctx.el ≠ .el3 ∧
    (∃ t, exec (.mcrA32 .al 0) (machineIn gE3 { cHyp with el3UsingAArch32 := true }) = .next t) ∧
    (machineIn gE3 { cHyp with el := .el2, el3UsingAArch32 := true }).ctx.el ≠ .el3 ∧
    (∃ t, exec (.mrcA32 .al 0) (machineIn gE3 { cHyp with el := .el2, el3UsingAArch32 := true }) = .next t) ∧
    (machineIn gE3 { cHyp with el := .el0, el3UsingAArch32 := true }).ctx.el ≠ .el3 ∧
    (∃ f, exec (.mcrA32 .al 0) (machineIn gE3 { cHyp with el := .el0, el3UsingAArch32 := true }) = .fault f) :=
  ⟨by decide, ⟨_, rfl⟩, by decide, ⟨_, rfl⟩, by decide, ⟨_, rfl⟩⟩

/-- The first clause in an active register, the second in each way of failing it. -/
theorem witness_EffIsFieldsWhereActive :
    (present g0 = true ∧ ({ eae := true, t2e := true } : Ttbcr).eae = true ∧
      ({ eae := true, t2e := true } : Ttbcr).t2e = true) ∧
    present { g0 with aa32EL1 := false } = false ∧ c0.ttbcr.eae = false ∧ c0.ttbcr.t2e = false := by decide

/-- A walk through TTBR1 with one Table descriptor. -/
def q0 : WalkRequest :=
  { regime := .pl10Stage1, security := .nonsecure, ttbr := .ttbr1, tables := [dFull], entry := 0#64 }

/-- An active register with HPD1 and HWU162 set, and a walk to come. -/
def sWalk : State :=
  { machineIn g0 { c0 with ttbcr := { eae := true, t2e := true } } with
    srN := cellOf 0x00040400#32, schedule := [.env (.walk q0)] }

/-- The same machine with a translation to come that may be served from a TLB, which still holds an older view. -/
def sTranslate : State :=
  { sWalk with
    srN := { cellOf 0x00040400#32 with cached := [{ content := .known 0#32, active := true }] }
    schedule := [.env (.translate q0)] }

/-- HPD1 is 1 in the word acted on, and in the same walk through TTBR0 HPD0 is 0. -/
theorem witness_WalkTakesHierarchicalBits :
    sWalk.schedule = .env (.walk q0) :: [] ∧ q0.regime = .pl10Stage1 ∧ (∃ t, step sWalk = .next t) ∧
    effHpd q0.ttbr (eff sWalk .plain) = true ∧ effHpd .ttbr0 (eff sWalk .plain) = false ∧
    sTranslate.schedule = .env (.translate q0) :: [] ∧ (∃ t, step sTranslate = .next t) :=
  ⟨rfl, rfl, ⟨_, rfl⟩, by decide, by decide, rfl, ⟨_, rfl⟩⟩

theorem witness_HardwareUsesOnlyPermittedBits :
    sWalk.schedule = .env (.walk q0) :: [] ∧ q0.regime = .pl10Stage1 ∧ (∃ t, step sWalk = .next t) ∧
    sTranslate.schedule = .env (.translate q0) :: [] ∧ (∃ t, step sTranslate = .next t) ∧
    effHwu sWalk.cfg q0.ttbr .b62 (eff sWalk .plain) = true ∧
    (∀ h, effHwu sWalk.cfg q0.ttbr h (eff sWalk .plain) = true →
      (0x0800000000000000#64).getLsbD h.pos = q0.entry.getLsbD h.pos) := by
  refine ⟨rfl, rfl, ⟨_, rfl⟩, rfl, ⟨_, rfl⟩, by decide, fun h => ?_⟩
  cases h <;> decide

/-- The table of governing copies: where EL3 uses AArch32 both Security states, and each of the three ways out of it. -/
theorem witness_WalkActsOnNewOrUnsyncedContent :
    sWalk.schedule = .env (.walk q0) :: [] ∧ q0.regime = .pl10Stage1 ∧
    (gE3.haveEL3 = true ∧ gE3.aa32EL3 = true ∧ cE3.el3UsingAArch32 = true ∧ q0.security = .nonsecure ∧
      ({ q0 with security := .secure } : WalkRequest).security = .secure) ∧
    (g0.haveEL3 = false ∧ ({ gE3 with aa32EL3 := false } : Config).aa32EL3 = false ∧ cHyp.el3UsingAArch32 = false) := by
  decide

theorem witness_TranslationActsOnVisibleView :
    sTranslate.schedule = .env (.translate q0) :: [] ∧ q0.regime = .pl10Stage1 ∧
    ({ content := .known 0#32, active := true } : View) ∈ (sTranslate.cell .plain).cached ∧
    ({ content := .known 0#32, active := true } : View) ∉ walkViews sTranslate .plain ∧
    (∃ t, step sTranslate = .next t) := ⟨rfl, rfl, by decide, by decide, ⟨_, rfl⟩⟩

theorem witness_OtherRegimesUntouched :
    ({ s0 with schedule := [.env (.walk { q0 with regime := .other })] } : State).schedule
      = .env (.walk { q0 with regime := .other }) :: [] ∧
    ({ s0 with schedule := [.env (.translate { q0 with regime := .other })] } : State).schedule
      = .env (.translate { q0 with regime := .other }) :: [] := ⟨rfl, rfl⟩

theorem witness_SynchronisedWriteGovernsWalks :
    (Instr.mcrA32 .al 5).isRead = false ∧ (Instr.mcrA32 .al 5).wf = true ∧
    (Instr.mcrA32 .al 5).rt.val = (5 : Fin 15).val ∧
    (let s := { sWalk with schedule := [.env .contextSync, .env (.walk q0)] };
      conditionPassed s.ctx (condOf s.ctx (.mcrA32 .al 5)) = true ∧ writeAllowed s.cfg s.ctx = true ∧
      premises s.cfg s.ctx = true ∧ q0.regime = .pl10Stage1 ∧
      walkBank s.cfg s.ctx q0.security = selectBank s.cfg s.ctx ∧ active s.cfg s.ctx .plain = true ∧
      s.schedule = .env .contextSync :: .env (.walk q0) :: [] ∧
      (Instr.mrcT32 14).isRead = true ∧ (Instr.mrcT32 14).wf = true ∧ (Instr.mrcT32 14).rt.val = (14 : Fin 15).val ∧
      conditionPassed s.ctx (condOf s.ctx (.mrcT32 14)) = true ∧ readAllowed s.cfg s.ctx = true) := by decide

/-- EL3 comes out of a reset using AArch32, with a view of TTBCR2 still in a TLB. -/
def sReset : State :=
  { machineIn { gE3 with aa64 := true } { c0 with el3UsingAArch32 := false } with
    srN := { cellOf 0#32 with cached := [{ content := .known 0x00000200#32, active := true }] }
    schedule := [.env (.reset .warm { ctx := cE3, x := regs, pc := 0#32 })] }

/-- A Secure translation may still be served with it, though TTBCR2_S governs it now (R51, R126). -/
theorem test_reset_hands_views_on :
    walkBank sReset.cfg sReset.ctx .secure = .plain ∧
    (match step sReset with
      | .next t => decide (walkBank t.cfg t.ctx .secure = .secure ∧
          ({ content := .known 0x00000200#32, active := true } : View) ∈ tlbViews t .secure)
      | _ => false) = true := by decide

/-- An MCR that leaves an older content visible to a walk; and a reset that changes the governing cell. -/
theorem witness_StaleViewsLastUntilInvalidation :
    (∃ t, step p1 = .next t) ∧ moveOf p1 ≠ some .tlbInvalidateSync ∧
    ({ content := .unknown, active := false } : View) ∈ p1.srN.views (active p1.cfg p1.ctx (nBank p1.cfg p1.ctx)) ∧
    (∃ t, step sReset = .next t) ∧ moveOf sReset ≠ some .tlbInvalidateSync ∧
    ({ content := .known 0x00000200#32, active := true } : View)
      ∈ tlbViews sReset (walkBank sReset.cfg sReset.ctx .secure) :=
  ⟨⟨_, rfl⟩, by decide, by decide, ⟨_, rfl⟩, by decide, by decide⟩

/-- An MCR makes an older content and a TLB view of TTBCR2; a reset hands a view on to TTBCR2_S. -/
theorem witness_ViewsComeFromUsableOnes :
    (∃ t, step p1 = .next t ∧ Content.unknown ∈ t.srN.unsynced ∧
      ({ content := .unknown, active := false } : View) ∈ t.srN.cached) ∧
    (∃ t, step sReset = .next t ∧ isReset sReset = true ∧ e3a32 sReset.cfg sReset.ctx = false ∧
      e3a32 t.cfg t.ctx = true ∧ ({ content := .known 0x00000200#32, active := true } : View) ∈ t.srS.cached) :=
  ⟨⟨_, rfl, by decide, by decide⟩, ⟨_, rfl, by decide, by decide, by decide, by decide⟩⟩

theorem witness_InvalidationClosesTheWindow :
    ({ sWalk with schedule := [.env .tlbInvalidateSync, .env (.translate q0)] } : State).schedule
      = .env .tlbInvalidateSync :: .env (.translate q0) :: [] ∧ q0.regime = .pl10Stage1 ∧
    walkBank sWalk.cfg sWalk.ctx q0.security = .plain := ⟨rfl, rfl, by decide⟩

theorem witness_ResetMakesEveryCopyUnknown :
    ({ s0 with schedule := [.env (.reset .warm { ctx := c0, x := regs, pc := 0#32 })] } : State).schedule
      = .env (.reset .warm { ctx := c0, x := regs, pc := 0#32 }) :: [] := rfl

/-- RST-4: TTBCR.{EAE, T2E} = {1, 0}. -/
theorem witness_WalkAfterResetActsOnZero :
    (let r : ResetInputs := { ctx := { c0 with ttbcr := { eae := true, t2e := false } }, x := regs, pc := 0#32 };
      let s := { s0 with schedule := [.env (.reset .warm r), .env (.walk q0)] };
      s.schedule = .env (.reset .warm r) :: .env (.walk q0) :: [] ∧ q0.regime = .pl10Stage1 ∧
      ¬((ttbcrOf r.ctx (walkBank s.cfg r.ctx q0.security)).eae = true ∧
        (ttbcrOf r.ctx (walkBank s.cfg r.ctx q0.security)).t2e = true)) := by decide

theorem witness_TcrWriteIsSeenByMrc :
    ({ s0 with schedule := [.env (.writeTcr 1#64)] } : State).schedule = .env (.writeTcr 1#64) :: [] ∧
    selectBank s0.cfg s0.ctx ≠ .secure ∧ (Instr.mrcA32 .al 0).isRead = true ∧ (Instr.mrcA32 .al 0).wf = true ∧
    (Instr.mrcA32 .al 0).rt.val = (0 : Fin 15).val ∧
    conditionPassed s0.ctx (condOf s0.ctx (.mrcA32 .al 0)) = true ∧
    readAllowed s0.cfg s0.ctx = true ∧ premises s0.cfg s0.ctx = true := by decide

theorem witness_McrIsSeenByTcrRead :
    ({ s0 with schedule := [.env .readTcr] } : State).schedule = .env .readTcr :: [] ∧
    selectBank s0.cfg s0.ctx ≠ .secure ∧ (Instr.mcrA32 .al 1).isRead = false ∧ (Instr.mcrA32 .al 1).wf = true ∧
    (Instr.mcrA32 .al 1).rt.val = (1 : Fin 15).val ∧
    conditionPassed s0.ctx (condOf s0.ctx (.mcrA32 .al 1)) = true ∧
    writeAllowed s0.cfg s0.ctx = true ∧ premises s0.cfg s0.ctx = true := by decide

theorem witness_EveryStepKeepsInvariant : State.Inv p1 ∧ (∃ t, step p1 = .next t) := by
  refine ⟨⟨by decide, ?_, ?_⟩, ⟨_, rfl⟩⟩ <;>
    exact ⟨by decide, by simp [p1, s0, machineIn, cellOf, Cell.afterReset],
      by simp [p1, s0, machineIn, cellOf, Cell.afterReset], by decide, by decide⟩

/-- Both cells do change: that of TTBCR2 by an MCR, a TCR_EL1 write and a reset, that of TTBCR2_S by an MCR at EL3. -/
theorem witness_OnlyWritersChangeTheRegister :
    (∃ t, step p1 = .next t ∧ t.srN.content ≠ p1.srN.content) ∧
    (∃ t, step { p1 with cfg := gE3, ctx := cE3 } = .next t ∧ t.srS.content ≠ p1.srS.content) ∧
    (∃ t, step { s0 with schedule := [.env (.writeTcr 0#64)] } = .next t ∧ t.srN.content ≠ s0.srN.content) :=
  ⟨⟨_, rfl, by decide⟩, ⟨_, rfl, by decide⟩, ⟨_, rfl, by decide⟩⟩

/-- A general register, the pc and the context do change. -/
theorem witness_OnlyWritersChangeTheRest :
    (∃ t, step { p1 with pc := 0x8004#32, srN := cellOf 0#32 } = .next t ∧ t.x[2] ≠ p1.x[2]) ∧
    (∃ t, step p1 = .next t ∧ t.pc ≠ p1.pc) ∧
    (∃ t, step { s0 with schedule := [.env (.setContext { c0 with scrNS := true })] } = .next t ∧ t.ctx ≠ s0.ctx) :=
  ⟨⟨_, rfl, by decide⟩, ⟨_, rfl, by decide⟩, ⟨_, rfl, by decide⟩⟩

/-- A change to EL2 that also enables the register, and one that would make EL3 use AArch32. -/
theorem witness_ContextChangeIsTaken :
    (let c := { cHyp with el := .el2, ttbcr := { eae := true, t2e := true } };
      ({ s0 with schedule := [.env (.setContext c)] } : State).schedule = .env (.setContext c) :: [] ∧
      e3a32 s0.cfg c = e3a32 s0.cfg s0.ctx) ∧
    (let s := machineIn gE3 c0;
      ({ s with schedule := [.env (.setContext cE3)] } : State).schedule = .env (.setContext cE3) :: [] ∧
      e3a32 s.cfg cE3 ≠ e3a32 s.cfg s.ctx) := by decide

theorem witness_El3StateFixedBetweenResets :
    (∃ t, step { s0 with schedule := [.env (.setContext { c0 with scrNS := true })] } = .next t ∧
      premises t.cfg t.ctx = true) ∧
    isReset { s0 with schedule := [.env (.setContext { c0 with scrNS := true })] } = false ∧
    premises s0.cfg s0.ctx = true := ⟨⟨_, rfl, by decide⟩, by decide, by decide⟩

end Sys2Proof.Tests
end

section
/-! PROOFS. The effective fields of a copy (rules R28 to R30). -/

namespace Sys2Proof.Machine

/-- FIELD_MASK at the position of a field says whether the field exists (rule R27). -/
@[simp] theorem fieldMask_getLsbD_pos (g : Config) (f : Field) : (fieldMask g).getLsbD f.pos = f.existsIn g := by
  rw [fieldMask_getLsbD]
  cases f with
  | hpd n => cases n <;> simp [Field.pos, Field.existsIn, Ttbr.num]
  | hwu n b => cases n <;> cases b <;> simp [Field.pos, Field.existsIn, Ttbr.num, HwBit.pos]

/-- A field of `Eff` is 1 exactly where the copy is active, the field exists, and what a read shows has 1 there
(rule R28). -/
theorem fieldValue_eff_iff (s : State) (b : Bank) (f : Field) :
    fieldValue f (eff s b) = true ↔
      active s.cfg s.ctx b = true ∧ f.existsIn s.cfg = true ∧ (readSR b s).getLsbD f.pos = true := by
  rw [eff_eq]
  cases active s.cfg s.ctx b with
  | false => simp [fieldValue]
  | true => simp [fieldValue, and_comm]

/-- The effective HPD bit of either half: an HPD field always exists, so only `Active` and the stored bit matter
(rule R29). -/
theorem effHpd_eff_iff (s : State) (b : Bank) (n : Ttbr) :
    effHpd n (eff s b) = true ↔ active s.cfg s.ctx b = true ∧ (readSR b s).getLsbD (9 + n.num) = true :=
  calc
    effHpd n (eff s b) = true
      ↔ active s.cfg s.ctx b = true ∧ (Field.hpd n).existsIn s.cfg = true ∧ (readSR b s).getLsbD (9 + n.num) = true :=
        fieldValue_eff_iff s b (.hpd n)
    _ ↔ active s.cfg s.ctx b = true ∧ (readSR b s).getLsbD (9 + n.num) = true := by simp [Field.existsIn]

/-- Settles O29: both halves are one rule, read at bits 9 and 10. -/
theorem effHpdExactly : Obligations.EffHpdExactly := by
  intro s b
  exact ⟨rfl, rfl, effHpd_eff_iff s b .ttbr0, effHpd_eff_iff s b .ttbr1⟩

/-- Settles O30: of the three bits the effective HWU bit is made of, an HWU field exists exactly with FEAT_HPDS2, and
both the HPD bit and the HWU bit of `Eff` ask for an active copy. -/
theorem effHwuExactly : Obligations.EffHwuExactly := by
  intro s b n h
  have hwu_iff : fieldValue (.hwu n h) (eff s b) = true ↔
      active s.cfg s.ctx b = true ∧ s.cfg.hpds2 = true ∧
        (readSR b s).getLsbD (11 + 4 * n.num + (h.pos - 59)) = true :=
    fieldValue_eff_iff s b (.hwu n h)
  simp only [effHwu, Bool.and_eq_true, effHpd_eff_iff, hwu_iff]
  tauto

end Sys2Proof.Machine
end

section
/-! PROOFS. The outcomes an instruction raises (60_exceptions.md, rules R100 to R103): what its checks can raise, from that
what it raises when its condition passes, and what a step can raise at all. -/

namespace Sys2Proof.Machine

/-! ## The checks of an instruction -/

/-- What an instruction raises before its access: the checks of MRC or of MCR (rules R80, R81). -/
def raisesOf (i : Instr) (g : Config) (c : Ctx) (iss : BitVec 25) : Option Fault :=
  if i.isRead then readRaises g c iss else writeRaises g c iss

/-- The bit of HCR_EL2 that traps an instruction's direction (rule R101). -/
def vmA64Of (i : Instr) (c : Ctx) : Bool := if i.isRead then c.hcrEL2Trvm else c.hcrEL2Tvm

/-- The bit of HCR that traps an instruction's direction (rule R102). -/
def vmA32Of (i : Instr) (c : Ctx) : Bool := if i.isRead then c.hcrTrvm else c.hcrTvm

/-- The cause those bits stand for. -/
def vmCauseOf (i : Instr) : TrapCause := if i.isRead then .trvm else .tvm

/-- The traps of EL2 to which an instruction at EL1 is open (rules R101, R102). -/
def el1TrapOf (i : Instr) (g : Config) (c : Ctx) (iss : BitVec 25) : Option Fault :=
  el1Trap g c (vmA64Of i c) (vmA32Of i c) (vmCauseOf i) iss

/-- The EL1 tests raise exactly what `el1Trap_cases` lists: the two Execution states of EL2 exclude each other, so the
order of the tests matters only between T2 and the bit of the direction. -/
theorem el1Trap_eq_some {g : Config} {c : Ctx} {vmA64 vmA32 : Bool} {q : TrapCause} {iss : BitVec 25} {f : Fault} :
    el1Trap g c vmA64 vmA32 q iss = some f ↔
      c.el2Enabled = true ∧
      ((g.aa64EL2 = true ∧ c.el2UsingAArch32 = false ∧
          ((c.hstrEL2T2 = true ∧ f = .trapToEL2A64 .t2 trapEc iss) ∨
            (c.hstrEL2T2 = false ∧ vmA64 = true ∧ f = .trapToEL2A64 q trapEc iss))) ∨
        (g.aa32EL2 = true ∧ c.el2UsingAArch32 = true ∧
          ((c.hstrT2 = true ∧ f = .hypTrap .t2 trapEc iss) ∨
            (c.hstrT2 = false ∧ vmA32 = true ∧ f = .hypTrap q trapEc iss)))) := by
  refine ⟨el1Trap_cases, ?_⟩
  rintro ⟨hen, ⟨hf, hu, ⟨ht, rfl⟩ | ⟨ht, hv, rfl⟩⟩ | ⟨hf, hu, ⟨ht, rfl⟩ | ⟨ht, hv, rfl⟩⟩⟩ <;> simp [el1Trap, *]

/-- Everything the checks of an instruction raise, and exactly when (rules R80, R81, R100, R105): the disjuncts
exclude each other, so the order of the checks is in them. -/
theorem raisesOf_eq_some {i : Instr} {g : Config} {c : Ctx} {iss : BitVec 25} {f : Fault} :
    raisesOf i g c iss = some f ↔
      (present g = false ∧ f = .undefined .absent) ∨
      (present g = true ∧
        ((c.el = .el0 ∧ f = .undefined .el0) ∨
          (c.el = .el1 ∧ el1TrapOf i g c iss = some f) ∨
          (c.el = .el3 ∧ i.isRead = false ∧ c.scrNS = false ∧
            ((c.cp15sdisable = .high ∧ f = .undefined .cp15sdisable) ∨
              (c.cp15sdisable = .low ∧ c.cp15sdisable2 = .high ∧ f = .undefined .cp15sdisable2))))) := by
  cases hp : present g with
  | false => cases hi : i.isRead <;> simp [raisesOf, readRaises, writeRaises, hp, hi, @eq_comm _ f]
  | true =>
    cases he : c.el with
    | el0 => cases hi : i.isRead <;> simp [raisesOf, readRaises, writeRaises, hp, hi, he, @eq_comm _ f]
    | el1 =>
      cases hi : i.isRead <;>
        simp [raisesOf, readRaises, writeRaises, el1TrapOf, vmA64Of, vmA32Of, vmCauseOf, hp, hi, he]
    | el2 => cases hi : i.isRead <;> simp [raisesOf, readRaises, writeRaises, hp, hi, he]
    | el3 =>
      cases hi : i.isRead with
      | true => simp [raisesOf, readRaises, hp, hi, he]
      | false =>
        cases hns : c.scrNS <;> cases h1 : c.cp15sdisable <;> cases h2 : c.cp15sdisable2 <;>
          simp [raisesOf, writeRaises, hp, hi, he, hns, h1, h2, @eq_comm _ f]

/-- The checks raise an Undefined exactly so (rule R100): no trap of EL2 is one. -/
theorem raisesOf_eq_undefined {i : Instr} {g : Config} {c : Ctx} {iss : BitVec 25} {why : UndefCause} :
    raisesOf i g c iss = some (.undefined why) ↔
      (present g = false ∧ why = .absent) ∨
      (present g = true ∧
        ((c.el = .el0 ∧ why = .el0) ∨
          (c.el = .el3 ∧ i.isRead = false ∧ c.scrNS = false ∧
            ((c.cp15sdisable = .high ∧ why = .cp15sdisable) ∨
              (c.cp15sdisable = .low ∧ c.cp15sdisable2 = .high ∧ why = .cp15sdisable2))))) := by
  simp only [raisesOf_eq_some, el1TrapOf, el1Trap_eq_some, Fault.undefined.injEq, reduceCtorEq, and_false, or_false,
    false_or]

/-- The checks trap to an EL2 using AArch64 exactly so (rules R101, R103). -/
theorem raisesOf_eq_trapToEL2A64 {i : Instr} {g : Config} {c : Ctx} {iss iss' : BitVec 25} {why : TrapCause} {ec : Nat} :
    raisesOf i g c iss = some (.trapToEL2A64 why ec iss') ↔
      (present g = true ∧ c.el = .el1 ∧ c.el2Enabled = true ∧ g.aa64EL2 = true ∧ c.el2UsingAArch32 = false) ∧
      (c.hstrEL2T2 = true ∧ why = .t2 ∨ c.hstrEL2T2 = false ∧ vmA64Of i c = true ∧ why = vmCauseOf i) ∧
      ec = trapEc ∧ iss' = iss := by
  simp only [raisesOf_eq_some, el1TrapOf, el1Trap_eq_some, Fault.trapToEL2A64.injEq, reduceCtorEq, and_false, or_false,
    false_or]
  tauto

/-- The checks trap to Hyp mode exactly so (rules R102, R103). -/
theorem raisesOf_eq_hypTrap {i : Instr} {g : Config} {c : Ctx} {iss iss' : BitVec 25} {why : TrapCause} {ec : Nat} :
    raisesOf i g c iss = some (.hypTrap why ec iss') ↔
      (present g = true ∧ c.el = .el1 ∧ c.el2Enabled = true ∧ g.aa32EL2 = true ∧ c.el2UsingAArch32 = true) ∧
      (c.hstrT2 = true ∧ why = .t2 ∨ c.hstrT2 = false ∧ vmA32Of i c = true ∧ why = vmCauseOf i) ∧
      ec = trapEc ∧ iss' = iss := by
  simp only [raisesOf_eq_some, el1TrapOf, el1Trap_eq_some, Fault.hypTrap.injEq, reduceCtorEq, and_false, or_false,
    false_or]
  tauto

/-! ## What an instruction raises -/

/-- A body raises what its checks raise, and nothing else. -/
theorem bodyOf_eq_fault {i : Instr} {cond : Cond} {k : Fin 15} {s : State} {f : Fault} :
    bodyOf i cond k s = .fault f ↔ raisesOf i s.cfg s.ctx (issOf s.cfg i.iset i.isRead cond k) = some f := by
  cases hi : i.isRead with
  | true =>
    simp only [bodyOf, raisesOf, hi, if_true]
    rcases mrcBody_cases i.iset cond k s with ⟨f', hr, e⟩ | ⟨ha, -, e⟩ | ⟨ha, -, e⟩
    · simp [e, hr]
    · simp [e, readRaises_eq_none.2 ha]
    · simp [e, readRaises_eq_none.2 ha]
  | false =>
    simp only [bodyOf, raisesOf, hi, Bool.false_eq_true, if_false]
    rcases mcrBody_cases i.iset cond k s with ⟨f', hr, e⟩ | ⟨ha, -, e⟩ | ⟨ha, -, e⟩
    · simp [e, hr]
    · simp [e, writeRaises_eq_none.2 ha]
    · simp [e, writeRaises_eq_none.2 ha]

/-- A well-formed instruction whose condition passes raises what its checks raise, with one syndrome detail. -/
theorem exec_eq_fault_of_passed {i : Instr} {s : State} (hw : i.wf = true)
    (hc : conditionPassed s.ctx (condOf s.ctx i) = true) :
    ∃ iss, ∀ f, exec i s = .fault f ↔ raisesOf i s.cfg s.ctx iss = some f := by
  obtain ⟨k, hk⟩ := rtIndex_of_wf hw
  refine ⟨issOf s.cfg i.iset i.isRead (condOf s.ctx i) k, fun f => ?_⟩
  rw [exec_of_rtIndex hk, underCondition_passed hc, bodyOf_eq_fault]

/-- Whatever an instruction raises, its condition passed or failed, its checks raise. -/
theorem raisesOf_of_exec_fault {i : Instr} {s : State} {f : Fault} (h : exec i s = .fault f) :
    ∃ iss, raisesOf i s.cfg s.ctx iss = some f := by
  obtain ⟨k, -, ⟨hi, hr⟩ | ⟨hi, hr⟩⟩ := exec_fault_cases h
  · exact ⟨_, by rw [raisesOf, if_pos hi, hr]⟩
  · exact ⟨_, by rw [raisesOf, if_neg (by simp [hi]), hr]⟩

/-! ## What a step raises -/

/-- No move of another agent raises anything: a context change may be refused, the others complete. -/
theorem applyMove_ne_fault {m : Move} {s : State} {f : Fault} : applyMove m s ≠ .fault f := by
  cases m with
  | setContext c =>
    simp only [applyMove, setContext]
    split <;> exact nofun
  | _ => exact nofun

/-- The fetch raises only that there is no instruction (decision D33). -/
theorem fetchInstr_eq_fault {s : State} {f : Fault} (h : fetchInstr s = .fault f) : f = .noInstruction := by
  unfold fetchInstr at h
  split at h
  next => cases h
  next =>
    split at h
    next => cases h; rfl
    next => split at h <;> cases h

/-- Everything the PE's turn can raise: the end of the instructions, or what the checks of one raise. -/
theorem peStep_fault_cases {s : State} {f : Fault} (h : peStep s = .fault f) :
    f = .noInstruction ∨ ∃ i iss, raisesOf i s.cfg s.ctx iss = some f := by
  unfold peStep at h
  split at h
  next i _ => exact .inr ⟨i, raisesOf_of_exec_fault h⟩
  next f' hf => cases h; exact .inl (fetchInstr_eq_fault hf)
  next => cases h

/-- Everything a step can raise: only the PE's turn raises anything. -/
theorem step_fault_cases {s : State} {f : Fault} (h : step s = .fault f) :
    f = .noInstruction ∨ ∃ i iss, raisesOf i s.cfg s.ctx iss = some f := by
  unfold step at h
  split at h
  next => exact peStep_fault_cases h
  next rest _ => exact peStep_fault_cases (s := { s with schedule := rest }) h
  next => exact absurd h applyMove_ne_fault

/-! ## The obligations -/

/-- Settles O21: the cases of `raisesOf_eq_undefined` are told apart by their causes. -/
theorem undefinedInExactlyTheseCases : Obligations.UndefinedInExactlyTheseCases := by
  intro i s hw hc
  obtain ⟨iss, hf⟩ := exec_eq_fault_of_passed hw hc
  have habsent : present s.cfg = false ↔ ¬(s.cfg.aa32EL1 = true ∧ s.cfg.aa32HPD = true) := by
    rw [present, ← Bool.and_eq_true, Bool.not_eq_true]
  simp only [hf, raisesOf_eq_undefined, reduceCtorEq, and_false, or_false, false_or, and_true]
  refine ⟨habsent, ?_, ?_, ?_⟩ <;> tauto

/-- Settles O22: T2 comes before the bit of the direction, which is TRVM for MRC and TVM for MCR. -/
theorem trapToA64El2InExactlyTheseCases : Obligations.TrapToA64El2InExactlyTheseCases := by
  intro i s hw hc
  obtain ⟨iss, hf⟩ := exec_eq_fault_of_passed hw hc
  simp only [hf, raisesOf_eq_trapToEL2A64, trapEc]
  refine ⟨?_, ?_, ?_, fun _ _ _ ⟨_, _, hec, _⟩ => hec⟩ <;>
    cases hi : i.isRead <;> simp [vmA64Of, vmCauseOf, hi]

/-- Settles O23: as O22, for an EL2 using AArch32. -/
theorem hypTrapInExactlyTheseCases : Obligations.HypTrapInExactlyTheseCases := by
  intro i s hw hc
  obtain ⟨iss, hf⟩ := exec_eq_fault_of_passed hw hc
  simp only [hf, raisesOf_eq_hypTrap, trapEc]
  refine ⟨?_, ?_, ?_, fun _ _ _ ⟨_, _, hec, _⟩ => hec⟩ <;>
    cases hi : i.isRead <;> simp [vmA32Of, vmCauseOf, hi]

/-- Settles O24: whatever a step raises comes from the checks of an instruction, and these trap with `trapEc` only. -/
theorem everyTrapCarriesCodeThree : Obligations.EveryTrapCarriesCodeThree := by
  intro s why ec iss
  constructor
  · intro h
    obtain hn | ⟨i, iss', hr⟩ := step_fault_cases h
    · cases hn
    · obtain ⟨-, -, hec, -⟩ := raisesOf_eq_trapToEL2A64.1 hr
      exact hec
  · intro h
    obtain hn | ⟨i, iss', hr⟩ := step_fault_cases h
    · cases hn
    · obtain ⟨-, -, hec, -⟩ := raisesOf_eq_hypTrap.1 hr
      exact hec

end Sys2Proof.Machine
end

section
/-! PROOFS. The decoder and the encoder (30_encoding.md): each undoes the other, and the decoder follows the opcode
table. -/

namespace Sys2Proof

/-! ## A word and its fields -/

/-- Taking apart the fields laid out gives the fields back (rules R62, R63). -/
@[simp] theorem fieldsOf_word (f : Fields) : fieldsOf f.word = f := by
  obtain ⟨top, op, opc1, l, crn, rt, coproc, opc2, one, crm⟩ := f
  simp only [fieldsOf, Fields.word, Fields.mk.injEq]
  refine ⟨?_, ?_, ?_, ?_, ?_, ?_, ?_, ?_, ?_, ?_⟩
  case refine_1 =>
    repeat rw [BitVec.extractLsb'_append_eq_of_le (by decide)]
    exact BitVec.extractLsb'_eq_self
  all_goals
    repeat rw [BitVec.extractLsb'_append_eq_of_le (by decide)]
    rw [BitVec.extractLsb'_append_eq_of_add_le (by decide)]
    exact BitVec.extractLsb'_eq_self

theorem fieldsOf_inj {w w' : Word} : fieldsOf w = fieldsOf w' ↔ w = w' :=
  ⟨fun h => by rw [← word_fieldsOf w, h, word_fieldsOf], congrArg fieldsOf⟩

/-- Fields masked by fields. -/
def Fields.and (f m : Fields) : Fields :=
  { top := f.top &&& m.top, op := f.op &&& m.op, opc1 := f.opc1 &&& m.opc1, l := f.l &&& m.l, crn := f.crn &&& m.crn,
    rt := f.rt &&& m.rt, coproc := f.coproc &&& m.coproc, opc2 := f.opc2 &&& m.opc2, one := f.one &&& m.one,
    crm := f.crm &&& m.crm }

/-- Masking a word masks its fields. -/
theorem fieldsOf_and (w m : Word) : fieldsOf (w &&& m) = (fieldsOf w).and (fieldsOf m) := by
  simp only [fieldsOf, Fields.and, BitVec.extractLsb'_and]

/-- Four bits of a word, as the opcode table's constraints take them out and as the layout does. -/
theorem shiftRight_and_fifteen (w : Word) (n : Nat) : (w >>> n) &&& 15#32 = (w.extractLsb' n 4).setWidth 32 := by
  apply BitVec.eq_of_toNat_eq
  have hlt : w.toNat >>> n % 2 ^ 4 < 2 ^ 32 := by omega
  rw [BitVec.toNat_and, BitVec.toNat_ushiftRight, BitVec.toNat_setWidth, BitVec.extractLsb'_toNat, Nat.mod_eq_of_lt hlt]
  exact Nat.and_two_pow_sub_one_eq_mod _ 4

/-- The four bits are a number exactly if the field is. -/
theorem field_eq_iff {w u : Word} {n : Nat} {v : BitVec 4} (hu : u = v.setWidth 32) :
    (w >>> n) &&& 15#32 = u ↔ w.extractLsb' n 4 = v := by
  rw [shiftRight_and_fifteen, hu]
  refine ⟨fun h => ?_, fun h => by rw [h]⟩
  have := congrArg (BitVec.setWidth 4) h
  simpa using this

/-! ## What decodes -/

/-- 0b1111 is the code of no condition (rule R62). -/
theorem Cond.ne_fifteen_of_ofBits {b : BitVec 4} {c : Cond} (h : Cond.ofBits b = some c) : b ≠ 15#4 := fun e => by
  rw [Cond.ofBits_eq_none.2 e] at h
  cases h

/-- The A32 access in the direction of an L bit (rule R62). -/
def a32Of (l : BitVec 1) (c : Cond) (t : RegNum) : Instr := if l = 1#1 then .mrcA32 c t else .mcrA32 c t

/-- The T32 access in the direction of an L bit (rule R63). -/
def t32Of (l : BitVec 1) (t : RegNum) : Instr := if l = 1#1 then .mrcT32 t else .mcrT32 t

section
variable (l : BitVec 1) (c : Cond) (t : RegNum)

@[simp] theorem a32Of_rt : (a32Of l c t).rt = t := by unfold a32Of; split <;> rfl
@[simp] theorem a32Of_iset : (a32Of l c t).iset = .a32 := by unfold a32Of; split <;> rfl
@[simp] theorem t32Of_rt : (t32Of l t).rt = t := by unfold t32Of; split <;> rfl
@[simp] theorem t32Of_iset : (t32Of l t).iset = .t32 := by unfold t32Of; split <;> rfl

@[simp] theorem encode_a32Of : encode (a32Of l c t) = (ttbcr2Fields c.bits l t).word := by
  rcases BitVec.eq_zero_or_eq_one l with rfl | rfl <;> rfl

theorem a32Of_inj {l l' : BitVec 1} {c c' : Cond} {t t' : RegNum} :
    a32Of l c t = a32Of l' c' t' ↔ l = l' ∧ c = c' ∧ t = t' := by
  rcases BitVec.eq_zero_or_eq_one l with rfl | rfl <;> rcases BitVec.eq_zero_or_eq_one l' with rfl | rfl <;>
    simp [a32Of]

theorem t32Of_inj {l l' : BitVec 1} {t t' : RegNum} : t32Of l t = t32Of l' t' ↔ l = l' ∧ t = t' := by
  rcases BitVec.eq_zero_or_eq_one l with rfl | rfl <;> rcases BitVec.eq_zero_or_eq_one l' with rfl | rfl <;>
    simp [t32Of]

@[simp] theorem encode_t32Of : encode (t32Of l t) = (ttbcr2Fields 14#4 l t).word := by
  rcases BitVec.eq_zero_or_eq_one l with rfl | rfl <;> rfl

end

/-- An A32 word decodes to exactly these instructions (rules R60, R62, R68). -/
theorem decodeA32_eq_instr {w : Word} {i : Instr} :
    decodeA32 w = .instr i ↔
      ∃ c, (fieldsOf w).isMrcMcr = true ∧ Cond.ofBits (fieldsOf w).top = some c ∧
        (fieldsOf w).selectsTtbcr2 = true ∧ (fieldsOf w).rt ≠ 15#4 ∧
        i = a32Of (fieldsOf w).l c (fieldsOf w).rt.toFin := by
  refine ⟨decodeA32_cases, ?_⟩
  rintro ⟨c, hm, hc, hs, hr, rfl⟩
  simp only [decodeA32, a32Of, hm, hc, hs, hr, Bool.not_true, Bool.false_eq_true, beq_iff_eq, if_false]
  split <;> rfl

/-- A T32 pair of halfwords decodes to exactly these instructions (rules R60, R63, R68). -/
theorem decodeT32_eq_instr {w : Word} {i : Instr} :
    decodeT32 w = .instr i ↔
      (fieldsOf w).isMrcMcr = true ∧ (fieldsOf w).top = 14#4 ∧ (fieldsOf w).selectsTtbcr2 = true ∧
        (fieldsOf w).rt ≠ 15#4 ∧ (fieldsOf w).rt ≠ 13#4 ∧ i = t32Of (fieldsOf w).l (fieldsOf w).rt.toFin := by
  refine ⟨decodeT32_cases, ?_⟩
  rintro ⟨hm, ht, hs, hr, h13, rfl⟩
  simp only [decodeT32, t32Of, hm, ht, hs, hr, h13, BEq.rfl, Bool.and_self, Bool.not_true, Bool.false_eq_true,
    beq_iff_eq, if_false]
  split <;> rfl

/-! ## Decoding and encoding -/

@[simp] theorem ttbcr2Fields_isMrcMcr (top : BitVec 4) (l : BitVec 1) (t : RegNum) :
    (ttbcr2Fields top l t).isMrcMcr = true := rfl

@[simp] theorem ttbcr2Fields_selectsTtbcr2 (top : BitVec 4) (l : BitVec 1) (t : RegNum) :
    (ttbcr2Fields top l t).selectsTtbcr2 = true := rfl

@[simp] theorem rtField_toFin (t : RegNum) : (BitVec.ofNat 4 t.val).toFin = t := by
  revert t; decide

/-- The Rt field is a number exactly if the register number is. -/
theorem toFin_eq_iff {b : BitVec 4} {t : RegNum} : (b.toFin : RegNum) = t ↔ b = BitVec.ofNat 4 t.val := by
  revert b t; decide

theorem Instr.wf_iff {i : Instr} : i.wf = true ↔ i.rt ≠ 15 ∧ (i.iset = .t32 → i.rt ≠ 13) := by
  simp only [Instr.wf, Instr.rtNotFifteen, Instr.rtNotThirteenInT32, Bool.and_eq_true, Bool.or_eq_true, bne_iff_ne,
    ne_eq, ← imp_iff_not_or]

/-- The word of a well-formed instruction decodes to it in its own instruction set. -/
theorem decodeWord_encode {i : Instr} (h : i.wf = true) : decodeWord i.iset (encode i) = .instr i := by
  obtain ⟨h15, h13⟩ := Instr.wf_iff.1 h
  have field_ne {t n : RegNum} (hn : t ≠ n) : BitVec.ofNat 4 t.val ≠ BitVec.ofNat 4 n.val := fun e =>
    hn (by rw [← toFin_eq_iff.2 e.symm, rtField_toFin])
  cases i with
  | mrcA32 c t | mcrA32 c t =>
    refine decodeA32_eq_instr.2 ⟨c, ?_⟩
    simp only [encode, fieldsOf_word, ttbcr2Fields_isMrcMcr, ttbcr2Fields_selectsTtbcr2, true_and]
    exact ⟨Cond.ofBits_bits c, field_ne h15, by simp [ttbcr2Fields, a32Of]⟩
  | mrcT32 t | mcrT32 t =>
    refine decodeT32_eq_instr.2 ?_
    simp only [encode, fieldsOf_word, ttbcr2Fields_isMrcMcr, ttbcr2Fields_selectsTtbcr2, true_and]
    exact ⟨rfl, field_ne h15, field_ne (h13 rfl), by simp [ttbcr2Fields, t32Of]⟩

/-- A word that decodes is the word of the instruction it decodes to, which is well-formed and of that instruction
set. -/
theorem encode_of_decodeWord {set : ISet} {w : Word} {i : Instr} (h : decodeWord set w = .instr i) :
    i.wf = true ∧ i.iset = set ∧ encode i = w := by
  cases set with
  | a32 =>
    obtain ⟨c, hm, hc, hs, h15, rfl⟩ := decodeA32_eq_instr.1 h
    refine ⟨Instr.wf_iff.2 ?_, a32Of_iset .., ?_⟩
    · rw [a32Of_rt, a32Of_iset]
      exact ⟨mt toFin_eq_iff.1 h15, nofun⟩
    · rw [encode_a32Of, Cond.bits_of_ofBits hc, ← Fields.eq_ttbcr2Fields hm hs, word_fieldsOf]
  | t32 =>
    obtain ⟨hm, htop, hs, h15, h13, rfl⟩ := decodeT32_eq_instr.1 h
    refine ⟨Instr.wf_iff.2 ?_, t32Of_iset .., ?_⟩
    · rw [t32Of_rt]
      exact ⟨mt toFin_eq_iff.1 h15, fun _ => mt toFin_eq_iff.1 h13⟩
    · rw [encode_t32Of, ← htop, ← Fields.eq_ttbcr2Fields hm hs, word_fieldsOf]

/-! ## The opcode table -/

/-- The mask of a row of the opcode table: all fields but Rt, and of the condition the bits `top`
(30_encoding.md section 4). -/
def rowMask (top : BitVec 4) : Fields :=
  { top := top, op := 15#4, opc1 := 7#3, l := 1#1, crn := 15#4, rt := 0#4, coproc := 15#4, opc2 := 7#3, one := 1#1,
    crm := 15#4 }

/-- A word has a row's match under the row's mask exactly when its fields are those of an access to TTBCR2 in the row's
direction, and its condition agrees in the bits of the mask. -/
theorem and_rowMask_eq_iff {w m v : Word} {mask top : BitVec 4} {l : BitVec 1} (hm : fieldsOf m = rowMask mask)
    (hv : fieldsOf v = ttbcr2Fields top l 0) :
    w &&& m = v ↔
      (fieldsOf w).top &&& mask = top ∧ (fieldsOf w).isMrcMcr = true ∧ (fieldsOf w).selectsTtbcr2 = true ∧
        (fieldsOf w).l = l := by
  have and_ones4 (b : BitVec 4) : b &&& 15#4 = b := BitVec.and_allOnes
  have and_ones3 (b : BitVec 3) : b &&& 7#3 = b := BitVec.and_allOnes
  have and_ones1 (b : BitVec 1) : b &&& 1#1 = b := BitVec.and_allOnes
  rw [← fieldsOf_inj, fieldsOf_and, hm, hv]
  generalize fieldsOf w = f
  simp only [Fields.and, rowMask, ttbcr2Fields, Fields.isMrcMcr, Fields.selectsTtbcr2, Fields.mk.injEq, and_ones4,
    and_ones3, and_ones1, BitVec.and_zero, Bool.and_eq_true, beq_iff_eq]
  tauto

/-- The condition bits of a word, as the opcode table's constraint takes them out (30_encoding.md section 4). -/
theorem shiftRight_28_eq_iff {w : Word} : w >>> 28 = 15#32 ↔ (fieldsOf w).top = 15#4 := by
  have htop : (w >>> 28) &&& 15#32 = w >>> 28 := by
    rw [← BitVec.toNat_inj, BitVec.toNat_and, BitVec.toNat_ushiftRight]
    have hlt : w.toNat >>> 28 < 2 ^ 4 := by rw [Nat.shiftRight_eq_div_pow]; omega
    exact (Nat.and_two_pow_sub_one_eq_mod _ 4).trans (Nat.mod_eq_of_lt hlt)
  rw [← htop]
  exact field_eq_iff rfl

/-- The words that decode to an A32 access in one direction, by their fields. -/
theorem exists_decodeA32_iff {w : Word} {l : BitVec 1} :
    (∃ c t, decodeWord .a32 w = .instr (a32Of l c t)) ↔
      ((fieldsOf w).isMrcMcr = true ∧ (fieldsOf w).selectsTtbcr2 = true ∧ (fieldsOf w).l = l) ∧
        (fieldsOf w).top ≠ 15#4 ∧ (fieldsOf w).rt ≠ 15#4 := by
  constructor
  · rintro ⟨c, t, h⟩
    obtain ⟨c', hm, hc, hs, hr, hi⟩ := decodeA32_eq_instr.1 h
    exact ⟨⟨hm, hs, (a32Of_inj.1 hi).1.symm⟩, Cond.ne_fifteen_of_ofBits hc, hr⟩
  · rintro ⟨⟨hm, hs, rfl⟩, htop, hr⟩
    obtain ⟨c, hc⟩ := Option.ne_none_iff_exists'.1 (mt Cond.ofBits_eq_none.1 htop)
    exact ⟨c, _, decodeA32_eq_instr.2 ⟨c, hm, hc, hs, hr, rfl⟩⟩

/-- The words that decode to a T32 access in one direction, by their fields. -/
theorem exists_decodeT32_iff {w : Word} {l : BitVec 1} :
    (∃ t, decodeWord .t32 w = .instr (t32Of l t)) ↔
      ((fieldsOf w).top = 14#4 ∧ (fieldsOf w).isMrcMcr = true ∧ (fieldsOf w).selectsTtbcr2 = true ∧
        (fieldsOf w).l = l) ∧ (fieldsOf w).rt ≠ 15#4 ∧ (fieldsOf w).rt ≠ 13#4 := by
  constructor
  · rintro ⟨t, h⟩
    obtain ⟨hm, htop, hs, h15, h13, hi⟩ := decodeT32_eq_instr.1 h
    exact ⟨⟨htop, hm, hs, (t32Of_inj.1 hi).1.symm⟩, h15, h13⟩
  · rintro ⟨⟨htop, hm, hs, rfl⟩, h15, h13⟩
    exact ⟨_, decodeT32_eq_instr.2 ⟨hm, htop, hs, h15, h13, rfl⟩⟩

/-- An A32 row of the opcode table: its mask leaves the condition out, its constraints speak of it. -/
theorem a32_row {v : Word} {l : BitVec 1} (hv : fieldsOf v = ttbcr2Fields 0#4 l 0) (w : Word) :
    (∃ c t, decodeWord .a32 w = .instr (a32Of l c t)) ↔
      w &&& 0x0FFF0FFF#32 = v ∧ w >>> 28 ≠ 15#32 ∧ (w >>> 12) &&& 15#32 ≠ 15#32 := by
  have hrow := and_rowMask_eq_iff (w := w) (m := 0x0FFF0FFF#32) (mask := 0#4) (by decide) hv
  have hrt : (w >>> 12) &&& 15#32 = 15#32 ↔ (fieldsOf w).rt = 15#4 := field_eq_iff rfl
  simp only [exists_decodeA32_iff, hrow, shiftRight_28_eq_iff, hrt, ne_eq, BitVec.and_zero, true_and]

/-- A T32 row of the opcode table: its mask fixes all bits but those of Rt. -/
theorem t32_row {v : Word} {l : BitVec 1} (hv : fieldsOf v = ttbcr2Fields 14#4 l 0) (w : Word) :
    (∃ t, decodeWord .t32 w = .instr (t32Of l t)) ↔
      w &&& 0xFFFF0FFF#32 = v ∧ (w >>> 12) &&& 15#32 ≠ 15#32 ∧ (w >>> 12) &&& 15#32 ≠ 13#32 := by
  have hrow := and_rowMask_eq_iff (w := w) (m := 0xFFFF0FFF#32) (mask := 15#4) (by decide) hv
  have h15 : (w >>> 12) &&& 15#32 = 15#32 ↔ (fieldsOf w).rt = 15#4 := field_eq_iff rfl
  have h13 : (w >>> 12) &&& 15#32 = 13#32 ↔ (fieldsOf w).rt = 13#4 := field_eq_iff rfl
  have hones : (fieldsOf w).top &&& 15#4 = (fieldsOf w).top := BitVec.and_allOnes
  simp only [exists_decodeT32_iff, hrow, hones, h15, h13, ne_eq]

end Sys2Proof

namespace Sys2Proof.Machine

/-! ## The obligations -/

/-- Settles O1: six words, decoded. -/
theorem specWordsDecode : Obligations.SpecWordsDecode := by
  unfold Obligations.SpecWordsDecode
  decide

/-- Settles O2: the bytes spell the word, and the word decodes to the instruction it is laid out from. -/
theorem decodeOfEncodedBytes : Obligations.DecodeOfEncodedBytes := by
  intro i rest h
  rw [encodeBytes, decode_bytesOf, decodeWord_encode h]

/-- Settles O3: a word is its fields, and those of a word that decodes are the instruction's. -/
theorem encodeOfDecodedWord : Obligations.EncodeOfDecodedWord :=
  fun _ _ _ h => encode_of_decodeWord h

/-- Settles O4: the rows of one instruction set differ in the L bit only. -/
theorem decodeFollowsOpcodeTable : Obligations.DecodeFollowsOpcodeTable := fun w =>
  ⟨a32_row (l := 1#1) (by decide) w, a32_row (l := 0#1) (by decide) w, t32_row (l := 1#1) (by decide) w,
    t32_row (l := 0#1) (by decide) w⟩

/-- Settles O5: the word of an instruction has the selection values, a condition and an Rt that each of these words
lacks. -/
theorem neighbouringWordsRefused : Obligations.NeighbouringWordsRefused := by
  intro set w h
  cases hd : decodeWord set w with
  | reject r => exact ⟨r, rfl⟩
  | instr i =>
    exfalso
    have selects (hs : (fieldsOf w).selectsTtbcr2 = true) :
        w.extractLsb' 8 4 = 15#4 ∧ w.extractLsb' 21 3 = 0#3 ∧ w.extractLsb' 16 4 = 2#4 ∧ w.extractLsb' 0 4 = 0#4 ∧
          w.extractLsb' 5 3 = 3#3 := by
      simpa [Fields.selectsTtbcr2, fieldsOf, and_assoc] using hs
    cases set with
    | a32 =>
      obtain ⟨c, -, hc, hs, h15, -⟩ := decodeA32_eq_instr.1 hd
      have htop : w.extractLsb' 28 4 ≠ 15#4 := Cond.ne_fifteen_of_ofBits hc
      have hrt : w.extractLsb' 12 4 ≠ 15#4 := h15
      simp [selects hs, htop, hrt] at h
    | t32 =>
      obtain ⟨-, -, hs, h15, h13, -⟩ := decodeT32_eq_instr.1 hd
      have hrt15 : w.extractLsb' 12 4 ≠ 15#4 := h15
      have hrt13 : w.extractLsb' 12 4 ≠ 13#4 := h13
      simp [selects hs, hrt15, hrt13] at h

end Sys2Proof.Machine
end

section
/-! PROOFS. The PE's turn (00_scope.md section 7, decision D33): what it fetches, that a step adds
nothing to it, and that a word placed at the pc is fetched next. -/

namespace Sys2Proof.Machine

/-! ## The fetch -/

section Fetch
variable {s : State} {set : ISet} {bs : List Byte}

theorem fetchInstr_aarch64 (h : s.ctx.exec = .aarch64) : fetchInstr s = .refused .aarch64State := by
  simp only [fetchInstr, h]

theorem fetchInstr_no_bytes (h : s.ctx.exec = .aarch32 set) (hb : fetchBytes s.pc s.mem = none) :
    fetchInstr s = .fault .noInstruction := by
  simp only [fetchInstr, h, hb]

theorem fetchInstr_decoded {i : Instr} (h : s.ctx.exec = .aarch32 set) (hb : fetchBytes s.pc s.mem = some bs)
    (hd : (decode set bs).1 = .instr i) : fetchInstr s = .instr i := by
  simp only [fetchInstr, h, hb, hd]

theorem fetchInstr_rejected {r : Reject} (h : s.ctx.exec = .aarch32 set) (hb : fetchBytes s.pc s.mem = some bs)
    (hd : (decode set bs).1 = .reject r) : fetchInstr s = .refused (.notOfThisSpec r) := by
  simp only [fetchInstr, h, hb, hd]

end Fetch

/-! ## The turn -/

section Turn
variable {s : State} {rest : List Turn}

theorem step_of_no_schedule (h : s.schedule = []) : step s = peStep s := by simp only [step, h]

theorem step_of_pe_turn (h : s.schedule = .pe :: rest) : step s = peStep { s with schedule := rest } := by
  simp only [step, h]

theorem peStep_instr {i : Instr} (h : fetchInstr s = .instr i) : peStep s = exec i s := by simp only [peStep, h]

theorem peStep_fault {f : Fault} (h : fetchInstr s = .fault f) : peStep s = .fault f := by simp only [peStep, h]

theorem peStep_refused {r : Refusal} (h : fetchInstr s = .refused r) : peStep s = .refused r := by
  simp only [peStep, h]

/-- On the PE's turn a step is the PE's, with at most the turn taken off. -/
theorem step_of_turn (h : s.schedule = [] ∨ ∃ rest, s.schedule = .pe :: rest) :
    ∃ l, step s = peStep { s with schedule := l } := by
  obtain h | ⟨rest, h⟩ := h
  · exact ⟨s.schedule, step_of_no_schedule h⟩
  · exact ⟨rest, step_of_pe_turn h⟩

end Turn

/-! ## A table word at the pc -/

/-- The bytes of a word are four. -/
theorem bytesOf_eq (set : ISet) (w : Word) : ∃ b0 b1 b2 b3, bytesOf set w = [b0, b1, b2, b3] := by
  cases set <;> exact ⟨_, _, _, _, rfl⟩

/-- A table word is decoded as the word it numbers, in the instruction set it is read in (log entry 16). -/
theorem decodeTableWord_eq_some {nbits w : Nat} {i : Instr} :
    decodeTableWord nbits w = some i ↔ decodeWord (tableISet (tableWord nbits w)) (tableWord nbits w) = .instr i := by
  have hd := decode_bytesOf (tableISet (tableWord nbits w)) (tableWord nbits w) []
  rw [List.append_nil] at hd
  rw [decodeTableWord, hd]
  cases decodeWord (tableISet (tableWord nbits w)) (tableWord nbits w) <;> simp [Decoded.toOption]

/-- The next fetch reads the word that was placed. -/
theorem fetchInstr_placeTableWord {s : State} {nbits w : Nat} {i : Instr} (h : decodeTableWord nbits w = some i) :
    fetchInstr (placeTableWord s nbits w) = .instr i := by
  obtain ⟨b0, b1, b2, b3, hb⟩ := bytesOf_eq (tableISet (tableWord nbits w)) (tableWord nbits w)
  have hd := decode_bytesOf (tableISet (tableWord nbits w)) (tableWord nbits w) []
  rw [List.append_nil, decodeTableWord_eq_some.1 h] at hd
  refine fetchInstr_decoded rfl ?_ (congrArg Prod.fst hd)
  simp only [placeTableWord, hb]
  exact fetchBytes_writeBytes ..

/-! ## The obligations -/

/-- Settles O6: an ill-formed operand names no register. -/
theorem illFormedOperandRefused : Obligations.IllFormedOperandRefused :=
  fun _ _ h => exec_of_rtIndex_none (rtIndex_of_not_wf h)

/-- Settles O7: either way the turn is the PE's, and the fetch gives the decoded instruction. -/
theorem stepRunsDecodedInstruction : Obligations.StepRunsDecodedInstruction := by
  intro s set bs i hx hb hd
  have hf := fetchInstr_decoded hx hb hd
  exact ⟨fun h => (step_of_no_schedule h).trans (peStep_instr hf),
    fun rest h => (step_of_pe_turn h).trans (peStep_instr (s := { s with schedule := rest }) hf)⟩

/-- Settles O8: what the fetch answers in place of an instruction is what the step answers. -/
theorem stepStopsWithoutInstruction : Obligations.StepStopsWithoutInstruction := by
  intro s hturn
  obtain ⟨l, hstep⟩ := step_of_turn hturn
  rw [hstep]
  refine ⟨fun h => peStep_refused (fetchInstr_aarch64 h), fun set hx => ⟨fun hb => ?_, fun bs r hb hd => ?_⟩⟩
  · exact peStep_fault (fetchInstr_no_bytes hx hb)
  · exact peStep_refused (fetchInstr_rejected hx hb hd)

/-- Settles O9: the placed bytes are fetched, and they are of the decoded instruction's own instruction set. -/
theorem placedWordRunsNext : Obligations.PlacedWordRunsNext := by
  intro s w i h
  obtain ⟨-, hset, -⟩ := encode_of_decodeWord (decodeTableWord_eq_some.1 h)
  refine ⟨_, rfl, ?_, ?_, rfl, rfl, rfl, rfl, rfl, rfl, rfl⟩
  · exact (step_of_no_schedule rfl).trans (peStep_instr (fetchInstr_placeTableWord h))
  · rw [hset]
    rfl

end Sys2Proof.Machine
end

section
/-! PROOFS. The frame of an instruction that answers a next state, the cell that a write reaches, and what the choice of
the copy says of the context (40_sysreg_access.md, rule R82). -/

namespace Sys2Proof.Machine

/-! ## What an instruction that answers a next state has left alone -/

section Frame
variable {i : Instr} {s t : State}

/-- Every instruction that completes moves the pc on by 4 (decision D10). -/
theorem exec_next_pc (h : exec i s = .next t) : t.pc = s.pc + 4#32 := by
  rcases exec_next_cases h with ⟨-, rfl | rfl⟩ | ⟨k, -, -, -, ⟨-, -, rfl⟩ | ⟨-, -, rfl⟩⟩ <;> simp

/-- The only general register an instruction changes is the one that a read names. -/
theorem exec_next_x (h : exec i s = .next t) {j : Fin 15} (hj : ¬(i.isRead = true ∧ i.rt.val = j.val)) :
    t.x[j] = s.x[j] := by
  obtain ⟨-, rfl | rfl⟩ | ⟨k, hk, -, -, ⟨hi, -, rfl⟩ | ⟨-, -, rfl⟩⟩ := exec_next_cases h
  · rfl
  · rfl
  · have hne : k.val ≠ j.val := fun e => hj ⟨hi, (rtIndex_eq_some.1 hk).1.trans e⟩
    simpa using Vector.getElem_set_ne k.isLt j.isLt hne
  · simp

/-- A read changes no cell. -/
theorem exec_next_cells_of_read (hi : i.isRead = true) (h : exec i s = .next t) : t.srN = s.srN ∧ t.srS = s.srS := by
  obtain ⟨-, rfl | rfl⟩ | ⟨k, -, -, -, ⟨-, -, rfl⟩ | ⟨hw, -, -⟩⟩ := exec_next_cases h
  · exact ⟨rfl, rfl⟩
  · exact ⟨rfl, rfl⟩
  · exact ⟨rfl, rfl⟩
  · rw [hi] at hw; cases hw

/-- A write changes of the two cells at most that of the selected copy. -/
theorem exec_next_cells_of_write (hi : i.isRead = false) (h : exec i s = .next t) :
    (selectBank s.cfg s.ctx = .secure → t.srN = s.srN) ∧ (selectBank s.cfg s.ctx ≠ .secure → t.srS = s.srS) := by
  obtain ⟨-, rfl | rfl⟩ | ⟨k, -, -, -, ⟨hr, -, -⟩ | ⟨-, -, rfl⟩⟩ := exec_next_cases h
  · exact ⟨fun _ => rfl, fun _ => rfl⟩
  · exact ⟨fun _ => rfl, fun _ => rfl⟩
  · rw [hi] at hr; cases hr
  · exact ⟨fun hb => by rw [hb]; rfl, fun hb => writeSR_srS _ _ _ hb⟩

end Frame

/-- A write of TTBCR2 or TTBCR2_NS writes the shared cell (decision D4). -/
theorem writeSR_srN {b : Bank} (v : Word) (s : State) (h : b ≠ .secure) :
    (writeSR b v s).srN = s.srN.write (active s.cfg s.ctx b) (v &&& writeMask s.cfg) := by
  cases b with
  | secure => exact absurd rfl h
  | plain | nonsecure => rfl

/-- Premise (a) of decision D20: at EL3, EL3 uses AArch32. -/
theorem e3a32_of_premises {g : Config} {c : Ctx} (hp : premises g c = true) (he : c.el = .el3) : e3a32 g c = true := by
  simp only [premises, he, bne_self_eq_false, Bool.false_or, Bool.and_eq_true] at hp
  obtain ⟨⟨⟨⟨⟨⟨ha, -⟩, -⟩, -⟩, -⟩, -⟩, -⟩ := hp
  exact ha

/-- TTBCR2_S is reached at EL3 with SCR.NS 0, and nowhere else (rule R82). -/
theorem selectBank_eq_secure {g : Config} {c : Ctx} : selectBank g c = .secure ↔ c.el = .el3 ∧ c.scrNS = false := by
  unfold selectBank
  by_cases he : c.el = .el3
  · cases c.scrNS <;> simp [he]
  · cases e3a32 g c <;> simp [he]

end Sys2Proof.Machine
end

section
/-! PROOFS. What one step of any agent does to the register, to what translation may still see of it, and to everything
else (10_state.md section 7, 20_memory.md section 4). -/

namespace Sys2Proof.Machine

/-! ## Who moves in a step -/

/-- Everything a step that answers a next state can have done, with the move or the instruction it was. -/
theorem step_next_turn {s t : State} (h : step s = .next t) :
    (∃ m rest, moveOf s = some m ∧ applyMove m { s with schedule := rest } = .next t) ∨
    (∃ i rest, moveOf s = none ∧ instrOf s = some i ∧ exec i { s with schedule := rest } = .next t) := by
  obtain ⟨m, rest, hs, hm⟩ | ⟨i, rest, hs, hf, he⟩ := step_next_cases h
  · exact .inl ⟨m, rest, by simp only [moveOf, hs], hm⟩
  · refine .inr ⟨i, rest, ?_, ?_, he⟩ <;> obtain hs | ⟨hs, -⟩ := hs
    · simp only [moveOf, hs]
    · simp only [moveOf, hs]
    · simp only [instrOf, hs, hf]
    · simp only [instrOf, hs, hf]

theorem isReset_of_moveOf {s : State} {kind : ResetKind} {r : ResetInputs} (h : moveOf s = some (.reset kind r)) :
    isReset s = true := by
  simp only [isReset, h]

/-! ## Everything but the register -/

/-- What a move other than a reset leaves alone: the general registers, the pc, and, unless it is a context change, the
context. -/
theorem applyMove_next_kept {m : Move} {s t : State} (h : applyMove m s = .next t) :
    (∃ kind r, m = .reset kind r) ∨ t.x = s.x ∧ t.pc = s.pc ∧ (t.ctx = s.ctx ∨ m = .setContext t.ctx) := by
  cases m with
  | reset kind r => exact .inl ⟨kind, r, rfl⟩
  | setContext c =>
    simp only [applyMove, setContext] at h
    split at h <;> cases h
    exact .inr ⟨rfl, rfl, .inr rfl⟩
  | writeTcr v =>
    cases h
    unfold writeTcr
    split <;> simp
  | readTcr =>
    cases h
    unfold readTcr
    split <;> simp
  | walk q =>
    cases h
    obtain ⟨-, -, hx, hpc, hctx⟩ := translateWith_fixed q (walkBank s.cfg s.ctx q.security) (walkViews s _) s
    exact .inr ⟨hx, hpc, .inl hctx⟩
  | translate q =>
    cases h
    obtain ⟨-, -, hx, hpc, hctx⟩ := translateWith_fixed q (walkBank s.cfg s.ctx q.security) (tlbViews s _) s
    exact .inr ⟨hx, hpc, .inl hctx⟩
  | contextSync | tlbInvalidateSync =>
    cases h
    exact .inr ⟨rfl, rfl, .inl rfl⟩

/-- Every step keeps the implementation and memory (decision D22, log entry 20). -/
theorem step_next_fixed {s t : State} (h : step s = .next t) : t.cfg = s.cfg ∧ t.mem = s.mem := by
  obtain ⟨m, rest, -, hm⟩ | ⟨i, rest, -, -, he⟩ := step_next_turn h
  · obtain ⟨hcfg, hmem, -⟩ := applyMove_next_fixed hm
    exact ⟨hcfg, hmem⟩
  · obtain ⟨hcfg, -, hmem, -⟩ := exec_next_fixed he
    exact ⟨hcfg, hmem⟩

/-- Settles O45: an instruction changes what the rules of its frame say, and a move that is no reset changes none of it
but the context. -/
theorem onlyWritersChangeTheRest : Obligations.OnlyWritersChangeTheRest := by
  intro s t h
  obtain ⟨hcfg, hmem⟩ := step_next_fixed h
  have hread (a : Nat) : Memory.read a t.mem = Memory.read a s.mem := by rw [hmem]
  obtain ⟨m, rest, hmove, hm⟩ | ⟨i, rest, -, hi, he⟩ := step_next_turn h
  · obtain ⟨kind, r, rfl⟩ | ⟨hx, hpc, hctx⟩ := applyMove_next_kept hm
    · have hr := isReset_of_moveOf hmove
      exact ⟨fun _ _ => .inr hr, fun _ => .inr hr, fun _ => .inr hr, hcfg, hread⟩
    · refine ⟨fun j hj => absurd (by rw [hx]) hj, fun hne => absurd hpc hne, fun hne => .inl ?_, hcfg, hread⟩
      rw [hmove, hctx.resolve_left hne]
  · have hpc : t.pc = s.pc + 4#32 := exec_next_pc (s := { s with schedule := rest }) he
    refine ⟨fun j hj => .inl ⟨i, hi, ?_⟩, fun _ => .inl ⟨⟨i, hi⟩, hpc⟩, fun hne => ?_, hcfg, hread⟩
    · by_contra hno
      exact hj (exec_next_x he hno)
    · obtain ⟨-, hctx, -⟩ := exec_next_fixed he
      exact absurd hctx hne

/-! ## One cell over one step -/

/-- A view that a translation may use of a cell under an enable: from the cell, or from a TLB (rules R49, R51). -/
def Cell.Usable (a : Bool) (k : Cell) (v : View) : Prop := v ∈ k.views a ∨ v ∈ k.cached

/-- What a step other than a reset and an invalidation makes of a cell, whose enable is `a` before and `a'` after it;
`W` is what must hold for the cell to be written. -/
inductive Cell.Becomes (g : Config) (W : Prop) (a a' : Bool) (k : Cell) : Cell → Prop
  | kept (h : a' = a) : Cell.Becomes g W a a' k k
  | retired : Cell.Becomes g W a a' k (k.retire a)
  | synced : Cell.Becomes g W a a' k (k.sync a)
  | written (h : W) (v : Word) : Cell.Becomes g W a a' k (k.write a (v &&& writeMask g))

namespace Cell.Becomes

variable {g : Config} {W : Prop} {a a' : Bool} {k k' : Cell}

/-- Good cells stay good. -/
theorem ok (h : Cell.Becomes g W a a' k k') (hk : k.ok g) : k'.ok g := by
  cases h with
  | kept => exact hk
  | retired => exact hk.retire a
  | synced => exact hk.sync a
  | written _ v => exact hk.write a v

/-- Only a write changes the content. -/
theorem content (h : Cell.Becomes g W a a' k k') (hne : k'.content ≠ k.content) : W := by
  cases h with
  | written hw => exact hw
  | kept | retired | synced => exact absurd rfl hne

/-- What was usable stays usable. -/
theorem usable (h : Cell.Becomes g W a a' k k') {v : View} (hv : k.Usable a v) : k'.Usable a' v := by
  cases h with
  | kept e => rwa [e]
  | retired | synced | written => exact .inr (Cell.mem_retire_cached.2 hv)

/-- A view in a TLB was usable. -/
theorem usable_of_cached (h : Cell.Becomes g W a a' k k') {v : View} (hv : v ∈ k'.cached) : k.Usable a v := by
  cases h with
  | kept => exact .inr hv
  | retired | synced | written => exact Cell.mem_retire_cached.1 hv

/-- An older content was the content, or an older one already. -/
theorem of_unsynced (h : Cell.Becomes g W a a' k k') {c : Content} (hc : c ∈ k'.unsynced) :
    c = k.content ∨ c ∈ k.unsynced := by
  cases h with
  | kept | retired => exact .inr hc
  | synced => cases hc
  | written => exact (mem_addNew _ _ _).1 hc

/-- A cell at a change of its enable (rule R126). -/
theorem of_onActive : Cell.Becomes g W a a' k (k.onActive a a') := by
  unfold Cell.onActive
  split
  next e => exact .kept e.symm
  next => exact .retired

end Cell.Becomes

/-! ## Both cells over one step -/

/-- The enable of the cell of TTBCR2 and TTBCR2_NS. -/
abbrev enableN (s : State) : Bool := active s.cfg s.ctx (nBank s.cfg s.ctx)

/-- The enable of the cell of TTBCR2_S. -/
abbrev enableS (s : State) : Bool := active s.cfg s.ctx .secure

/-- A step that may write the cell of TTBCR2 and TTBCR2_NS (decision D21). -/
def MayWriteN (s : State) : Prop :=
  (∃ i, instrOf s = some i ∧ i.isRead = false ∧ selectBank s.cfg s.ctx ≠ .secure) ∨ ∃ v, moveOf s = some (.writeTcr v)

/-- A step that may write the cell of TTBCR2_S (rule R109). -/
def MayWriteS (s : State) : Prop :=
  ∃ i, instrOf s = some i ∧ i.isRead = false ∧ s.ctx.el = .el3 ∧ s.ctx.scrNS = false ∧ s.ctx.cp15sdisable = .low ∧
    s.ctx.cp15sdisable2 = .low

/-- Both cells over a step that is neither a reset nor an invalidation, and the premise of decision D4. -/
structure OrdinaryStep (s t : State) : Prop where
  e3a32_eq : e3a32 t.cfg t.ctx = e3a32 s.cfg s.ctx
  srN : s.srN.Becomes s.cfg (MayWriteN s) (enableN s) (enableN t) t.srN
  srS : s.srS.Becomes s.cfg (MayWriteS s) (enableS s) (enableS t) t.srS

/-- A step that keeps context, implementation and both cells is ordinary. -/
theorem OrdinaryStep.of_kept {s t : State} (hcfg : t.cfg = s.cfg) (hctx : t.ctx = s.ctx) (hN : t.srN = s.srN)
    (hS : t.srS = s.srS) : OrdinaryStep s t := by
  refine ⟨by rw [hcfg, hctx], ?_, ?_⟩
  · rw [hN]; exact .kept (by rw [enableN, enableN, hcfg, hctx])
  · rw [hS]; exact .kept (by rw [enableS, enableS, hcfg, hctx])

/-- The pc is nothing to the cells. -/
theorem OrdinaryStep.of_advancePc {s t : State} (h : OrdinaryStep s t) : OrdinaryStep s (advancePc t) :=
  ⟨h.e3a32_eq, h.srN, h.srS⟩

/-- A write of TTBCR2 or TTBCR2_NS under its name of now. -/
theorem OrdinaryStep.of_write_shared {s : State} {b : Bank} (hw : MayWriteN s) (hn : nBank s.cfg s.ctx = b)
    (hb : b ≠ .secure) (v : Word) (rest : List Turn) :
    OrdinaryStep s (writeSR b v { s with schedule := rest }) := by
  refine ⟨by simp, ?_, ?_⟩
  · rw [writeSR_srN v _ hb, ← hn]
    exact .written hw v
  · rw [writeSR_srS _ _ _ hb]
    exact .kept (by simp [enableS])

/-- A write of TTBCR2_S. -/
theorem OrdinaryStep.of_write_secure {s : State} (hw : MayWriteS s) (v : Word) (rest : List Turn) :
    OrdinaryStep s (writeSR .secure v { s with schedule := rest }) :=
  ⟨by simp, .kept (by simp [enableN]), .written hw v⟩

/-- An access that reaches TTBCR2_S and may write it is an unlocked one at EL3 (rules R82, R109). -/
theorem secure_write_unlocked {g : Config} {c : Ctx} (hs : selectBank g c = .secure) (ha : writeAllowed g c = true) :
    c.el = .el3 ∧ c.scrNS = false ∧ c.cp15sdisable = .low ∧ c.cp15sdisable2 = .low := by
  obtain ⟨hel, hns⟩ := selectBank_eq_secure.1 hs
  simp only [writeAllowed, secureWriteLocked, hel, hns, Bool.and_eq_true] at ha
  obtain ⟨-, hlock⟩ := ha
  refine ⟨hel, hns, ?_⟩
  cases h1 : c.cp15sdisable <;> cases h2 : c.cp15sdisable2 <;> simp [h1, h2] at hlock ⊢

theorem nBank_ne_secure (g : Config) (c : Ctx) : nBank g c ≠ .secure := by
  unfold nBank
  split <;> exact nofun

/-- Over an instruction the cells take an ordinary step. -/
theorem ordinaryStep_of_exec {s t : State} {i : Instr} {rest : List Turn} (hi : instrOf s = some i)
    (h : exec i { s with schedule := rest } = .next t) : OrdinaryStep s t := by
  obtain ⟨-, rfl | rfl⟩ | ⟨k, -, -, hp, ⟨-, -, rfl⟩ | ⟨hr, ha, rfl⟩⟩ := exec_next_cases h
  · exact .of_kept rfl rfl rfl rfl
  · exact .of_kept rfl rfl rfl rfl
  · exact .of_kept rfl rfl rfl rfl
  · refine OrdinaryStep.of_advancePc ?_
    by_cases hs : selectBank s.cfg s.ctx = .secure
    · obtain ⟨hel, hns, h1, h2⟩ := secure_write_unlocked hs ha
      simp only [hs]
      exact .of_write_secure ⟨i, hi, hr, hel, hns, h1, h2⟩ _ rest
    · exact .of_write_shared (.inl ⟨i, hi, hr, hs⟩) (nBank_of_selectBank hp hs) hs _ rest

/-- Over a move that is neither a reset nor an invalidation the cells take an ordinary step. -/
theorem applyMove_next_cells {s t : State} {m : Move} {rest : List Turn} (hm : moveOf s = some m)
    (h : applyMove m { s with schedule := rest } = .next t) :
    (∃ kind r, m = .reset kind r ∧ t = resetWith r { s with schedule := rest }) ∨
    (m = .tlbInvalidateSync ∧ t = tlbInvalidateSync { s with schedule := rest }) ∨
    OrdinaryStep s t := by
  cases m with
  | reset kind r => cases h; exact .inl ⟨kind, r, rfl, rfl⟩
  | tlbInvalidateSync => cases h; exact .inr (.inl ⟨rfl, rfl⟩)
  | setContext c =>
    refine .inr (.inr ?_)
    simp only [applyMove, setContext] at h
    split at h <;> cases h
    next he =>
      have hn : nBank s.cfg c = nBank s.cfg s.ctx := by simp only [nBank, he]
      refine ⟨he, ?_, .of_onActive⟩
      simp only [enableN, hn]
      exact .of_onActive
  | writeTcr v =>
    refine .inr (.inr ?_)
    cases h
    unfold writeTcr
    split
    · exact .of_write_shared (.inr ⟨v, hm⟩) rfl (nBank_ne_secure _ _) _ rest
    · exact .of_kept rfl rfl rfl rfl
  | readTcr =>
    refine .inr (.inr ?_)
    cases h
    unfold readTcr
    split <;> exact .of_kept rfl rfl rfl rfl
  | walk q =>
    cases h
    obtain ⟨hN, hS, -, -, hctx⟩ := translateWith_fixed q (walkBank s.cfg s.ctx q.security)
      (walkViews { s with schedule := rest } (walkBank s.cfg s.ctx q.security)) { s with schedule := rest }
    obtain ⟨hcfg, -, -⟩ := applyMove_next_fixed (m := .walk q) (s := { s with schedule := rest }) rfl
    exact .inr (.inr (.of_kept hcfg hctx hN hS))
  | translate q =>
    cases h
    obtain ⟨hN, hS, -, -, hctx⟩ := translateWith_fixed q (walkBank s.cfg s.ctx q.security)
      (tlbViews { s with schedule := rest } (walkBank s.cfg s.ctx q.security)) { s with schedule := rest }
    obtain ⟨hcfg, -, -⟩ := applyMove_next_fixed (m := .translate q) (s := { s with schedule := rest }) rfl
    exact .inr (.inr (.of_kept hcfg hctx hN hS))
  | contextSync => cases h; exact .inr (.inr ⟨rfl, .synced, .synced⟩)

/-- Everything a step that answers a next state does to the two cells: a reset, an invalidation, or an ordinary step. -/
theorem step_next_cells {s t : State} (h : step s = .next t) :
    (∃ kind r rest, moveOf s = some (.reset kind r) ∧ t = resetWith r { s with schedule := rest }) ∨
    (∃ rest, moveOf s = some .tlbInvalidateSync ∧ t = tlbInvalidateSync { s with schedule := rest }) ∨
    OrdinaryStep s t := by
  obtain ⟨m, rest, hm, ha⟩ | ⟨i, rest, -, hi, he⟩ := step_next_turn h
  · obtain ⟨kind, r, rfl, rfl⟩ | ⟨rfl, rfl⟩ | ho := applyMove_next_cells hm ha
    · exact .inl ⟨kind, r, rest, hm, rfl⟩
    · exact .inr (.inl ⟨rest, hm, rfl⟩)
    · exact .inr (.inr ho)
  · exact .inr (.inr (ordinaryStep_of_exec hi he))

/-! ## The obligations about the two cells -/

/-- A reset keeps good cells good, with the views it hands on (log entry 24). -/
theorem resetWith_ok {s : State} {r : ResetInputs} (hN : s.srN.ok s.cfg) (hS : s.srS.ok s.cfg) :
    (resetWith r s).srN.ok s.cfg ∧ (resetWith r s).srS.ok s.cfg := by
  constructor <;> simp only [resetWith] <;> split
  · exact (hS.reset _).share (hN.reset _)
  · exact hN.reset _
  · exact (hN.reset _).share (hS.reset _)
  · exact hS.reset _

/-- Settles O43: memory and the masks stay, and every step keeps good cells good. -/
theorem everyStepKeepsInvariant : Obligations.EveryStepKeepsInvariant := by
  intro s t hinv h
  obtain ⟨hwf, hN, hS⟩ := hinv
  obtain ⟨hcfg, hmem⟩ := step_next_fixed h
  rw [State.Inv, hmem, hcfg]
  refine ⟨hwf, ?_⟩
  obtain ⟨kind, r, rest, -, rfl⟩ | ⟨rest, -, rfl⟩ | ho := step_next_cells h
  · exact resetWith_ok (s := { s with schedule := rest }) hN hS
  · exact ⟨hN.invalidate, hS.invalidate⟩
  · exact ⟨ho.srN.ok hN, ho.srS.ok hS⟩

/-- Settles O44: outside resets a content changes only in an ordinary step that writes its cell. -/
theorem onlyWritersChangeTheRegister : Obligations.OnlyWritersChangeTheRegister := by
  intro s t h
  obtain ⟨kind, r, rest, hm, -⟩ | ⟨rest, -, rfl⟩ | ho := step_next_cells h
  · exact ⟨fun _ => .inr (.inr (isReset_of_moveOf hm)), fun _ => .inr (isReset_of_moveOf hm)⟩
  · exact ⟨absurd rfl, absurd rfl⟩
  · exact ⟨fun hne => (ho.srN.content hne).elim .inl (.inr ∘ .inl), fun hne => .inl (ho.srS.content hne)⟩

/-- Settles O49: an ordinary step and an invalidation keep within what was usable of the cell itself, a reset may hand on
what was usable of the other. -/
theorem viewsComeFromUsableOnes : Obligations.ViewsComeFromUsableOnes := by
  intro s t h
  obtain ⟨kind, r, rest, hm, rfl⟩ | ⟨rest, -, rfl⟩ | ho := step_next_cells h
  · have hr := isReset_of_moveOf hm
    refine ⟨fun c hc => ?_, fun c hc => ?_, fun v hv => ?_, fun v hv => ?_⟩
    · rw [← cell_plain, resetWith_cell_unsynced] at hc
      cases hc
    · rw [← cell_secure, resetWith_cell_unsynced] at hc
      cases hc
    · exact (resetWith_srN_cached.1 hv).imp_right (Or.imp_right fun ⟨h1, h2, hu⟩ => ⟨hr, h1, h2, hu⟩)
    · exact (resetWith_srS_cached.1 hv).imp_right (Or.imp_right fun ⟨h1, h2, hu⟩ => ⟨hr, h1, h2, hu⟩)
  · exact ⟨nofun, nofun, nofun, nofun⟩
  · exact ⟨fun _ => ho.srN.of_unsynced, fun _ => ho.srS.of_unsynced,
      fun _ hv => (ho.srN.usable_of_cached hv).imp_right .inl, fun _ hv => (ho.srS.usable_of_cached hv).imp_right .inl⟩

/-! ## The copy that governs a translation -/

/-- The copy of rule R41 is TTBCR2_S, or the shared cell by its name of now. -/
theorem walkBank_cases (g : Config) (c : Ctx) (q : Security) :
    walkBank g c q = .secure ∨ walkBank g c q = nBank g c := by
  unfold walkBank nBank
  cases e3a32 g c <;> cases q <;> simp

/-- Which copy governs depends on EL3's Execution state alone (rule R41). -/
theorem walkBank_congr {g g' : Config} {c c' : Ctx} (h : e3a32 g' c' = e3a32 g c) (q : Security) :
    walkBank g' c' q = walkBank g c q := by
  simp only [walkBank, h]

theorem nBank_congr {g g' : Config} {c c' : Ctx} (h : e3a32 g' c' = e3a32 g c) : nBank g' c' = nBank g c := by
  simp only [nBank, h]

@[simp] theorem cell_nBank (s : State) (g : Config) (c : Ctx) : s.cell (nBank g c) = s.srN := by
  unfold nBank
  split <;> rfl

/-- What an ordinary step leaves usable of each cell it leaves usable by every translation that it governs. -/
theorem OrdinaryStep.keeps_tlbViews {s t : State} (h : OrdinaryStep s t) {q : Security} {v : View}
    (hv : v ∈ tlbViews s (walkBank s.cfg s.ctx q)) : v ∈ tlbViews t (walkBank t.cfg t.ctx q) := by
  rw [walkBank_congr h.e3a32_eq]
  rw [mem_tlbViews] at hv ⊢
  obtain hb | hb := walkBank_cases s.cfg s.ctx q <;> rw [hb] at hv ⊢
  · exact h.srS.usable hv
  · rw [cell_nBank] at hv ⊢
    rw [← nBank_congr h.e3a32_eq]
    exact h.srN.usable hv

/-- Settles O36: an ordinary step keeps what is usable of a cell usable, and a reset leaves it in a TLB, for the cell
that governs from then on. -/
theorem staleViewsLastUntilInvalidation : Obligations.StaleViewsLastUntilInvalidation := by
  intro s t h hno
  obtain ⟨kind, r, rest, -, rfl⟩ | ⟨rest, hm, -⟩ | ho := step_next_cells h
  · refine ⟨fun v hv => .inr ?_, fun v hv => .inr ?_, fun q v hv => ?_⟩
    · exact resetWith_srN_cached.2 (hv.imp_right .inl)
    · exact resetWith_srS_cached.2 (hv.imp_right .inl)
    · exact mem_tlbViews.2 (.inr (resetWith_keeps_tlbViews (s := { s with schedule := rest }) hv))
  · exact absurd hm hno
  · exact ⟨fun _ => ho.srN.usable, fun _ => ho.srS.usable, fun _ _ => ho.keeps_tlbViews⟩

/-- Within the premises the plain copy is reached exactly where EL3 does not use AArch32 (rule R82, decision D20). -/
theorem selectBank_eq_plain {g : Config} {c : Ctx} (hp : premises g c = true) :
    selectBank g c = .plain ↔ e3a32 g c = false := by
  unfold selectBank
  by_cases he : c.el = .el3
  · cases hns : c.scrNS <;> simp [he, e3a32_of_premises hp he]
  · cases e3a32 g c <;> simp [he]

/-- Settles O46: only a reset changes the premise of decision D4, and the premise chooses the copy. -/
theorem el3StateFixedBetweenResets : Obligations.El3StateFixedBetweenResets := by
  intro s t h hr
  have he : e3a32 t.cfg t.ctx = e3a32 s.cfg s.ctx := by
    obtain ⟨kind, r, rest, hm, -⟩ | ⟨rest, -, rfl⟩ | ho := step_next_cells h
    · rw [isReset_of_moveOf hm] at hr
      cases hr
    · rfl
    · exact ho.e3a32_eq
  exact ⟨he, fun hpt hps => by rw [selectBank_eq_plain hpt, selectBank_eq_plain hps, he]⟩

end Sys2Proof.Machine
end

section
/-! PROOFS. Accesses that complete, and accesses that stop (40_sysreg_access.md, 60_exceptions.md section 5). -/

namespace Sys2Proof.Machine

/-! ## The next states of an access -/

/-- The state after a read of the selected copy into `x[k]` (rule R80). -/
def mrcNext (k : Fin 15) (s : State) : State :=
  advancePc (writeX k (readSR (selectBank s.cfg s.ctx) s) (afterReadSR (selectBank s.cfg s.ctx) s))

/-- The state after a write of `x[k]` to the selected copy (rule R81). -/
def mcrNext (k : Fin 15) (s : State) : State :=
  advancePc (writeSR (selectBank s.cfg s.ctx) (readX k s) s)

section Completes
variable {i : Instr} {s : State} {k : Fin 15}

/-- A well-formed read whose condition passes completes where it is allowed, within the premises. -/
theorem exec_eq_mrcNext (hi : i.isRead = true) (hw : i.wf = true) (hk : i.rt.val = k.val)
    (hc : conditionPassed s.ctx (condOf s.ctx i) = true) (ha : readAllowed s.cfg s.ctx = true)
    (hp : premises s.cfg s.ctx = true) : exec i s = .next (mrcNext k s) :=
  (exec_read hi hw hk hc).trans (mrcBody_next ha hp)

/-- A well-formed write whose condition passes completes where it is allowed, within the premises. -/
theorem exec_eq_mcrNext (hi : i.isRead = false) (hw : i.wf = true) (hk : i.rt.val = k.val)
    (hc : conditionPassed s.ctx (condOf s.ctx i) = true) (ha : writeAllowed s.cfg s.ctx = true)
    (hp : premises s.cfg s.ctx = true) : exec i s = .next (mcrNext k s) :=
  (exec_write hi hw hk hc).trans (mcrBody_next ha hp)

end Completes

section NextState
variable (k : Fin 15) (s : State)

@[simp] theorem mrcNext_cfg : (mrcNext k s).cfg = s.cfg := rfl
@[simp] theorem mrcNext_ctx : (mrcNext k s).ctx = s.ctx := rfl
@[simp] theorem mrcNext_pc : (mrcNext k s).pc = s.pc + 4#32 := rfl
@[simp] theorem mrcNext_cell (b : Bank) : (mrcNext k s).cell b = s.cell b := by simp [mrcNext]
@[simp] theorem mrcNext_draws :
    (mrcNext k s).draws = s.draws + contentDraws (s.cell (selectBank s.cfg s.ctx)).content := rfl

/-- The register read into holds the selected copy. -/
@[simp] theorem mrcNext_x_self : (mrcNext k s).x[k] = readSR (selectBank s.cfg s.ctx) s := by simp [mrcNext]

/-- Every other register stays. -/
theorem mrcNext_x_ne {k : Fin 15} {s : State} {n : Fin 15} (h : n ≠ k) : (mrcNext k s).x[n] = s.x[n] := by
  simpa [mrcNext] using Vector.getElem_set_ne k.isLt n.isLt (fun e => h (Fin.ext e.symm))

@[simp] theorem mcrNext_cfg : (mcrNext k s).cfg = s.cfg := by simp [mcrNext]
@[simp] theorem mcrNext_ctx : (mcrNext k s).ctx = s.ctx := by simp [mcrNext]
@[simp] theorem mcrNext_pc : (mcrNext k s).pc = s.pc + 4#32 := by simp [mcrNext]
@[simp] theorem mcrNext_x : (mcrNext k s).x = s.x := by simp [mcrNext]
@[simp] theorem mcrNext_schedule : (mcrNext k s).schedule = s.schedule := by simp [mcrNext]

/-- The selected copy holds the register, less the bits that hold no state (rule R84). -/
@[simp] theorem mcrNext_content :
    ((mcrNext k s).cell (selectBank s.cfg s.ctx)).content = .known (s.x[k] &&& writeMask s.cfg) := by
  simp [mcrNext, readX]

/-- What a read returns of a copy that holds a value: reads mask again (rule R83). -/
theorem readSR_known {b : Bank} {s : State} {v : Word} (h : (s.cell b).content = .known v) :
    readSR b s = v &&& writeMask s.cfg := by
  simp only [readSR, contentWord, h]

/-- What a read returns of a copy that is UNKNOWN: the next draw (decision D2). -/
theorem readSR_unknown {b : Bank} {s : State} (h : (s.cell b).content = .unknown) :
    readSR b s = Config.unknownWord s.draws &&& writeMask s.cfg := by
  simp only [readSR, contentWord, h]

/-- A read right after a write returns the written register, less the bits that hold no state. -/
@[simp] theorem readSR_mcrNext :
    readSR (selectBank s.cfg s.ctx) (mcrNext k s) = s.x[k] &&& writeMask s.cfg := by
  rw [readSR_known (mcrNext_content k s), mcrNext_cfg, BitVec.and_assoc, BitVec.and_self]

end NextState

/-- A register number below 15 is an operand of A32 (rule R68). -/
theorem ne_fifteen_of_val {r : RegNum} {k : Fin 15} (h : r.val = k.val) : r ≠ 15 := fun e => by
  have hk := k.isLt
  rw [e] at h
  simp at h
  omega

/-- Settles O10: both forms are the one read of the selected copy. -/
theorem mrcCompletesWithSelectedCopy : Obligations.MrcCompletesWithSelectedCopy := by
  intro s k ha hp
  refine ⟨mrcNext k s, ?_, ?_, fun c r hr hc => ?_, fun r hr h13 hc => ?_⟩
  · cases hcon : (s.cell (selectBank s.cfg s.ctx)).content <;>
      simp only [mrcNext, advancePc, writeX, afterReadSR, readSR, contentWord, hcon]
  · rw [mrcNext_draws]
    cases (s.cell (selectBank s.cfg s.ctx)).content with
    | known v => exact .inl rfl
    | unknown => exact .inr ⟨rfl, rfl⟩
  · exact exec_eq_mrcNext rfl (Instr.wf_iff.2 ⟨ne_fifteen_of_val hr, nofun⟩) hr hc ha hp
  · exact exec_eq_mrcNext rfl (Instr.wf_iff.2 ⟨ne_fifteen_of_val hr, fun _ => h13⟩) hr hc ha hp

/-- Settles O11: both forms are the one write of the selected copy, and the old content joins its past. -/
theorem mcrCompletesWithWrittenCopy : Obligations.McrCompletesWithWrittenCopy := by
  intro s k ha hp
  have hnext : mcrNext k s = { s.setCell (selectBank s.cfg s.ctx) ((s.cell (selectBank s.cfg s.ctx)).write
      (active s.cfg s.ctx (selectBank s.cfg s.ctx)) (s.x[k] &&& writeMask s.cfg)) with pc := s.pc + 4#32 } := by
    simp only [mcrNext, advancePc, writeSR, setCell_pc, readX]
  refine ⟨(s.cell (selectBank s.cfg s.ctx)).write (active s.cfg s.ctx (selectBank s.cfg s.ctx))
    (s.x[k] &&& writeMask s.cfg), rfl, (mem_addNew _ _ _).2 (.inl rfl), fun c => (mem_addNew _ _ _).1,
    fun v => Cell.mem_retire_cached, fun c r hr hc => ?_, fun r hr h13 hc => ?_⟩
  · rw [← hnext]
    exact exec_eq_mcrNext rfl (Instr.wf_iff.2 ⟨ne_fifteen_of_val hr, nofun⟩) hr hc ha hp
  · rw [← hnext]
    exact exec_eq_mcrNext rfl (Instr.wf_iff.2 ⟨ne_fifteen_of_val hr, fun _ => h13⟩) hr hc ha hp

/-! ## Frames -/

/-- Settles O12: a read changes the register it names and no cell. -/
theorem mrcFrame : Obligations.MrcFrame := by
  intro i s t hi h
  obtain ⟨hcfg, hctx, hmem, hsched, hwalk, htcr⟩ := exec_next_fixed h
  obtain ⟨hN, hS⟩ := exec_next_cells_of_read hi h
  exact ⟨fun j hj => exec_next_x h fun ⟨_, e⟩ => hj e.symm, hN, hS, hctx, hcfg, hsched, hwalk, htcr,
    fun a => by rw [hmem]⟩

/-- Settles O13: a write changes no register, and of the two cells only the selected copy's. -/
theorem mcrFrame : Obligations.McrFrame := by
  intro i s t hi h
  obtain ⟨hcfg, hctx, hmem, hsched, hwalk, htcr⟩ := exec_next_fixed h
  have hx : t.x = s.x := Vector.ext fun j hj => exec_next_x (j := ⟨j, hj⟩) h (by simp [hi])
  obtain ⟨hN, hS⟩ := exec_next_cells_of_write hi h
  exact ⟨hx, hN, hS, hctx, hcfg, hsched, hwalk, htcr, fun a => by rw [hmem]⟩

/-! ## Two accesses in a row -/

/-- Settles O17: the second access finds the context of the first, and the copy that it wrote. -/
theorem readAfterWriteReturnsWritten : Obligations.ReadAfterWriteReturnsWritten := by
  intro s i j a k hi hiw hia hic hj hjw hjk hjc hwa hra hp
  have hread : exec j (mcrNext a s) = .next (mrcNext k (mcrNext a s)) :=
    exec_eq_mrcNext hj hjw hjk (by simpa using hjc) (by simpa using hra) (by simpa using hp)
  refine ⟨_, _, exec_eq_mcrNext hi hiw hia hic hwa hp, hread, ?_, ?_, fun n hn => ?_⟩
  · rw [mrcNext_x_self, mcrNext_cfg, mcrNext_ctx, readSR_mcrNext]
  · rw [mrcNext_pc, mcrNext_pc, BitVec.add_assoc]
    rfl
  · rw [mrcNext_x_ne hn, mcrNext_x]

/-- Settles O18: what is written back is the masked value, and masking twice is masking once. -/
theorem writingBackKeepsRegister : Obligations.WritingBackKeepsRegister := by
  intro s v i j hv hi hiw hic hj hjw hjc hrt hwa hra hp
  obtain ⟨k, hk⟩ := rtIndex_of_wf hjw
  obtain ⟨hjk, -⟩ := rtIndex_eq_some.1 hk
  have hik : i.rt.val = k.val := by rw [hrt, hjk]
  have hwrite : exec i (mrcNext k s) = .next (mcrNext k (mrcNext k s)) :=
    exec_eq_mcrNext hi hiw hik hic hwa hp
  have hback : readSR (selectBank s.cfg s.ctx) (mcrNext k (mrcNext k s)) = (mrcNext k s).x[k] &&& writeMask s.cfg :=
    readSR_mcrNext k (mrcNext k s)
  refine ⟨_, _, exec_eq_mrcNext hj hjw hjk hjc hra hp, hwrite, ?_, mcrNext_x _ _⟩
  rw [hback, mrcNext_x_self, readSR_known hv, BitVec.and_assoc, BitVec.and_self]

/-- Settles O19: the first read leaves the copy UNKNOWN and the draws one further. -/
theorem unknownCopyReadsAreFresh : Obligations.UnknownCopyReadsAreFresh := by
  intro s i j a k hak hi hiw hia hic hj hjw hjk hjc hu hra hp
  have hread : exec j (mrcNext a s) = .next (mrcNext k (mrcNext a s)) := exec_eq_mrcNext hj hjw hjk hjc hra hp
  have hu' : ((mrcNext a s).cell (selectBank s.cfg s.ctx)).content = .unknown := by rw [mrcNext_cell, hu]
  have hdraws : (mrcNext a s).draws = s.draws + 1 := by rw [mrcNext_draws, hu]; rfl
  refine ⟨_, _, exec_eq_mrcNext hi hiw hia hic hra hp, hread, ?_, ?_, ?_⟩
  · rw [mrcNext_x_ne hak, mrcNext_x_self, readSR_unknown hu]
  · rw [mrcNext_x_self, mrcNext_cfg, mrcNext_ctx, readSR_unknown hu', hdraws, mrcNext_cfg]
  · rw [mrcNext_cell, hu']

/-! ## Which copy, and whether at all -/

/-- Below EL3 the copy depends on EL3's Execution state alone (rule R82). -/
theorem selectBank_of_ne_el3 {g : Config} {c : Ctx} (h : c.el ≠ .el3) :
    selectBank g c = if e3a32 g c then .nonsecure else .plain := by
  simp only [selectBank, h, if_false]

/-- The copy an access reaches exists, within the premises of decision D20. -/
theorem bankExists_selectBank {g : Config} {c : Ctx} (hpr : present g = true) (hp : premises g c = true) :
    bankExists g (selectBank g c) = true := by
  have hplain := selectBank_eq_plain hp
  cases he : e3a32 g c with
  | false =>
    rw [hplain.2 he]
    simp only [premises, Bool.and_eq_true] at hp
    obtain ⟨⟨⟨⟨⟨⟨-, hb⟩, -⟩, -⟩, -⟩, -⟩, -⟩ := hp
    simp only [bankExists, e3a32, hpr] at he ⊢
    cases h1 : g.haveEL3 <;> cases h2 : g.aa64 <;> cases h3 : g.aa32EL3 <;> simp [h1, h2, h3] at hb he ⊢
    simp [he] at hb
  | true =>
    have haa : g.aa32EL3 = true := by
      simp only [e3a32, Bool.and_eq_true] at he
      obtain ⟨⟨-, haa⟩, -⟩ := he
      exact haa
    cases hs : selectBank g c with
    | plain => rw [hplain.1 hs] at he; cases he
    | secure | nonsecure => simp [bankExists, hpr, haa]

/-- Settles O14: the rows are those of the selection formula, and the premises leave only copies that exist. -/
theorem selectedCopyFollowsTable : Obligations.SelectedCopyFollowsTable := by
  intro g c
  have hne (h : c.el = .el1 ∨ c.el = .el2) : c.el ≠ .el3 := by rintro e; simp [e] at h
  refine ⟨fun h h1 h2 h3 => ?_, fun h hor => ?_, fun h hns => selectBank_eq_secure.2 ⟨h, hns⟩, fun h hns => ?_,
    bankExists_selectBank⟩
  · simp [selectBank_of_ne_el3 (hne h), e3a32, h1, h2, h3]
  · rw [selectBank_of_ne_el3 (hne h)]
    obtain e | e | e := hor <;> simp [e3a32, e]
  · simp [selectBank, h, hns]

/-- The checks of an instruction raise nothing exactly where the table lets the access through (rule R109). -/
theorem raisesOf_eq_none {i : Instr} {g : Config} {c : Ctx} {iss : BitVec 25} :
    raisesOf i g c iss = none ↔ accessAllowed g c i = true := by
  unfold raisesOf accessAllowed
  split
  · exact readRaises_eq_none
  · exact writeRaises_eq_none

/-- What an instruction completes with: the read or the write of the selected copy. -/
def bodyNext (i : Instr) (k : Fin 15) (s : State) : State := if i.isRead then mrcNext k s else mcrNext k s

/-- The outcome of a body whose checks raise what is given: outside the premises an access that they let through is
refused (rule R82). -/
def bodyOutcome (i : Instr) (k : Fin 15) (s : State) : Option Fault → Outcome
  | some f => .fault f
  | none => if premises s.cfg s.ctx then .next (bodyNext i k s) else .refused .contextOutsidePremises

/-- Reads and writes in one form: the checks, then the premises, then the access. -/
theorem bodyOf_eq (i : Instr) (c : Cond) (k : Fin 15) (s : State) :
    bodyOf i c k s = bodyOutcome i k s (raisesOf i s.cfg s.ctx (issOf s.cfg i.iset i.isRead c k)) := by
  cases hi : i.isRead with
  | true =>
    simp only [bodyOf, raisesOf, hi, if_true]
    obtain ⟨f, hr, e⟩ | ⟨ha, hp, e⟩ | ⟨ha, hp, e⟩ := mrcBody_cases i.iset c k s
    · simp [e, hr, bodyOutcome]
    · simp [e, readRaises_eq_none.2 ha, hp, bodyOutcome]
    · simp [e, readRaises_eq_none.2 ha, hp, bodyOutcome, bodyNext, mrcNext, hi]
  | false =>
    simp only [bodyOf, raisesOf, hi, Bool.false_eq_true, if_false]
    obtain ⟨f, hr, e⟩ | ⟨ha, hp, e⟩ | ⟨ha, hp, e⟩ := mcrBody_cases i.iset c k s
    · simp [e, hr, bodyOutcome]
    · simp [e, writeRaises_eq_none.2 ha, hp, bodyOutcome]
    · simp [e, writeRaises_eq_none.2 ha, hp, bodyOutcome, bodyNext, mcrNext, hi]

/-- Settles O15: the three outcomes of a body go with the three lines of the table. -/
theorem accessRightsExactly : Obligations.AccessRightsExactly := by
  intro i s hw hc
  obtain ⟨k, hk⟩ := rtIndex_of_wf hw
  rw [exec_of_rtIndex hk, underCondition_passed hc, bodyOf_eq]
  cases hr : raisesOf i s.cfg s.ctx (issOf s.cfg i.iset i.isRead (condOf s.ctx i) k) with
  | some f =>
    have ha : accessAllowed s.cfg s.ctx i ≠ true := fun ha => by rw [raisesOf_eq_none.2 ha] at hr; cases hr
    simp [bodyOutcome, ha]
  | none =>
    have ha := raisesOf_eq_none.1 hr
    cases hp : premises s.cfg s.ctx <;> simp [bodyOutcome, ha, hp]

/-! ## A failed condition -/

/-- The state in which the condition of an instruction passes, all else alike. -/
def withPassing (c : Cond) (s : State) : State := { s with ctx := { s.ctx with passing := c :: s.ctx.passing } }

@[simp] theorem condOf_withPassing (i : Instr) (c : Cond) (s : State) :
    condOf (withPassing c s).ctx i = condOf s.ctx i := by
  cases i <;> rfl

@[simp] theorem conditionPassed_withPassing (c : Cond) (s : State) :
    conditionPassed (withPassing c s).ctx c = true := by
  simp [conditionPassed, withPassing]

/-- What a body raises does not depend on the conditions that pass. -/
theorem bodyOf_withPassing_fault {i : Instr} {c c' : Cond} {k : Fin 15} {s : State} {f : Fault}
    (h : bodyOf i c k s = .fault f) : bodyOf i c k (withPassing c' s) = .fault f := by
  have hr := bodyOf_eq_fault.1 h
  exact bodyOf_eq_fault.2 hr

/-- Settles O16: a failed condition leaves the pc to move on, or the raise of the body. -/
theorem failedConditionIsNoOpOrTheRaise : Obligations.FailedConditionIsNoOpOrTheRaise := by
  intro i s hw hc
  obtain ⟨k, hk⟩ := rtIndex_of_wf hw
  have hpass : exec i (withPassing (condOf s.ctx i) s) =
      bodyOf i (condOf s.ctx i) k (withPassing (condOf s.ctx i) s) := by
    rw [exec_of_rtIndex hk, condOf_withPassing, underCondition_passed (conditionPassed_withPassing _ _)]
  rw [exec_of_rtIndex hk]
  obtain e | ⟨f, hb, e | e⟩ := underCondition_failed (body := bodyOf i (condOf s.ctx i) k) hc <;> rw [e]
  · exact .inl ⟨s.draws, rfl, le_rfl, Nat.le_succ _⟩
  · exact .inr ⟨f, rfl, hpass.trans (bodyOf_withPassing_fault hb)⟩
  · exact .inl ⟨s.draws + 1, rfl, Nat.le_succ _, le_rfl⟩

end Sys2Proof.Machine
end

section
/-! PROOFS. Two runs of one instruction side by side: what an access does not depend on (rules R28, R110), and the
syndrome detail of its traps (rule R104). -/

namespace Sys2Proof.Machine

/-! ## Outcomes that agree -/

/-- Two outcomes of one kind, with one reason to stop, or with next states that are related. -/
inductive Alike (R : State → State → Prop) : Outcome → Outcome → Prop
  | next {t t' : State} (h : R t t') : Alike R (.next t) (.next t')
  | fault (f : Fault) : Alike R (.fault f) (.fault f)
  | refused (r : Refusal) : Alike R (.refused r) (.refused r)

section Alike
variable {R : State → State → Prop} {o o' : Outcome}

theorem Alike.fault_iff (h : Alike R o o') (f : Fault) : o = .fault f ↔ o' = .fault f := by
  cases h <;> simp

theorem Alike.refused_iff (h : Alike R o o') (r : Refusal) : o = .refused r ↔ o' = .refused r := by
  cases h <;> simp

theorem Alike.exists_next (h : Alike R o o') {t : State} (ht : o = .next t) : ∃ t', o' = .next t' ∧ R t t' := by
  cases h with
  | next hR => cases ht; exact ⟨_, rfl, hR⟩
  | fault | refused => cases ht

/-- Next states that are related by a function are mapped by it. -/
theorem Alike.eq_mapNext {φ : State → State} (h : Alike (fun t t' => t' = φ t) o o') : o' = mapNext φ o := by
  cases h with
  | next hR => rw [hR]; rfl
  | fault | refused => rfl

end Alike

/-- Two states in which an instruction makes the same checks. -/
structure SameChecks (i : Instr) (s s' : State) : Prop where
  cfg : s'.cfg = s.cfg
  draws : s'.draws = s.draws
  cond : condOf s'.ctx i = condOf s.ctx i
  passed : ∀ c, conditionPassed s'.ctx c = conditionPassed s.ctx c
  raises : ∀ iss, raisesOf i s.cfg s'.ctx iss = raisesOf i s.cfg s.ctx iss
  premises : premises s.cfg s'.ctx = premises s.cfg s.ctx

section
variable {R : State → State → Prop} {i : Instr} {s s' : State}

/-- Bodies that make the same checks agree where they complete alike. -/
theorem bodyOf_alike (h : SameChecks i s s') {k : Fin 15} (hR : R (bodyNext i k s) (bodyNext i k s')) (c : Cond) :
    Alike R (bodyOf i c k s) (bodyOf i c k s') := by
  rw [bodyOf_eq, bodyOf_eq, h.cfg, h.raises]
  cases raisesOf i s.cfg s.ctx (issOf s.cfg i.iset i.isRead c k) with
  | some f => exact .fault f
  | none =>
    simp only [bodyOutcome, h.cfg, h.premises]
    cases premises s.cfg s.ctx with
    | true => exact .next hR
    | false => exact .refused _

/-- Instructions agree where their bodies and their no-ops do. -/
theorem exec_alike (h : SameChecks i s s') (hbody : ∀ k, R (bodyNext i k s) (bodyNext i k s'))
    (hnop : R (advancePc s) (advancePc s'))
    (hdraw : R (advancePc { s with draws := s.draws + 1 }) (advancePc { s' with draws := s'.draws + 1 })) :
    Alike R (exec i s) (exec i s') := by
  rw [exec_eq, exec_eq, h.cond]
  unfold withRt
  cases rtIndex i.iset i.rt with
  | none => exact .refused _
  | some k =>
    have hb := bodyOf_alike h (hbody k) (condOf s.ctx i)
    simp only [underCondition, h.passed, h.draws]
    cases conditionPassed s.ctx (condOf s.ctx i) with
    | true => exact hb
    | false =>
      simp only [Bool.false_eq_true, if_false]
      generalize bodyOf i (condOf s.ctx i) k s = o, bodyOf i (condOf s.ctx i) k s' = o' at hb
      cases hb with
      | next | refused => exact .next hnop
      | fault f =>
        cases Config.condFailRaises s.draws with
        | true => exact .fault f
        | false => exact .next (h.draws ▸ hdraw)

end

/-! ## The TTBCR bits (rule R28) -/

/-- What an access has to do with: general registers, pc, draws and the contents of both cells. -/
structure AccessEq (t t' : State) : Prop where
  x : t'.x = t.x
  pc : t'.pc = t.pc
  draws : t'.draws = t.draws
  srN : t'.srN.content = t.srN.content
  srS : t'.srS.content = t.srS.content

/-- A state with other TTBCR bits in each bank. -/
def withTtbcr (p q r : Ttbcr) (s : State) : State :=
  { s with ctx := { s.ctx with ttbcr := p, ttbcrS := q, ttbcrNS := r } }

theorem sameChecks_withTtbcr (i : Instr) (p q r : Ttbcr) (s : State) : SameChecks i s (withTtbcr p q r s) where
  cfg := rfl
  draws := rfl
  cond := by cases i <;> rfl
  passed _ := rfl
  raises _ := rfl
  premises := rfl

/-- The TTBCR bits are nothing to what an access reads, and to the content that it writes. -/
theorem bodyNext_withTtbcr (i : Instr) (k : Fin 15) (p q r : Ttbcr) (s : State) :
    AccessEq (bodyNext i k s) (bodyNext i k (withTtbcr p q r s)) := by
  have hb : selectBank (withTtbcr p q r s).cfg (withTtbcr p q r s).ctx = selectBank s.cfg s.ctx := rfl
  unfold bodyNext
  split
  · unfold mrcNext
    rw [hb]
    cases selectBank s.cfg s.ctx <;> exact ⟨rfl, rfl, rfl, rfl, rfl⟩
  · unfold mcrNext
    rw [hb]
    cases selectBank s.cfg s.ctx <;> exact ⟨rfl, rfl, rfl, rfl, rfl⟩

/-- Settles O20: the checks, the choice of the copy and the content of a write have no TTBCR bit in them. -/
theorem accessIgnoresTtbcrBits : Obligations.AccessIgnoresTtbcrBits := by
  intro i s p q r
  have h : Alike AccessEq (exec i s) (exec i (withTtbcr p q r s)) :=
    exec_alike (sameChecks_withTtbcr i p q r s) (fun k => bodyNext_withTtbcr i k p q r s) ⟨rfl, rfl, rfl, rfl, rfl⟩
      ⟨rfl, rfl, rfl, rfl, rfl⟩
  refine ⟨h.fault_iff, h.refused_iff, fun t ht => ?_⟩
  obtain ⟨t', ht', hx, hpc, hdraws, hN, hS⟩ := h.exists_next ht
  exact ⟨t', ht', hx, hpc, hdraws, hN, hS⟩

/-! ## The Secure copy below EL3 (rule R110) -/

/-- A state with another cell in the place of TTBCR2_S. -/
def withSecure (k : Cell) (s : State) : State := { s with srS := k }

theorem sameChecks_withSecure (i : Instr) (k : Cell) (s : State) : SameChecks i s (withSecure k s) where
  cfg := rfl
  draws := rfl
  cond := by cases i <;> rfl
  passed _ := rfl
  raises _ := rfl
  premises := rfl

/-- An access that reaches another copy leaves TTBCR2_S as it finds it, and finds the same in the other copies. -/
theorem bodyNext_withSecure {i : Instr} {s : State} (h : selectBank s.cfg s.ctx ≠ .secure) (m : Fin 15) (k : Cell) :
    bodyNext i m (withSecure k s) = withSecure k (bodyNext i m s) := by
  have hb : selectBank (withSecure k s).cfg (withSecure k s).ctx = selectBank s.cfg s.ctx := rfl
  unfold bodyNext
  split
  · unfold mrcNext
    rw [hb]
    cases hs : selectBank s.cfg s.ctx with
    | secure => exact absurd hs h
    | plain | nonsecure => rfl
  · unfold mcrNext
    rw [hb]
    cases hs : selectBank s.cfg s.ctx with
    | secure => exact absurd hs h
    | plain | nonsecure => rfl

/-- Settles O26: below EL3 no access reaches TTBCR2_S. -/
theorem secureCopyIsolatedBelowEl3 : Obligations.SecureCopyIsolatedBelowEl3 := by
  intro i s k hel
  have hs : selectBank s.cfg s.ctx ≠ .secure := fun e => hel (selectBank_eq_secure.1 e).1
  have h : Alike (fun t t' => t' = withSecure k t) (exec i s) (exec i (withSecure k s)) :=
    exec_alike (sameChecks_withSecure i k s) (fun m => bodyNext_withSecure hs m k) rfl rfl
  refine ⟨h.eq_mapNext, fun t ht => ?_⟩
  cases hi : i.isRead with
  | true => exact (exec_next_cells_of_read hi ht).2
  | false => exact (exec_next_cells_of_write hi ht).2 hs

/-! ## The syndrome detail (rule R104) -/

/-- The layout of rule R104 as a sum of its fields in their places. -/
theorem familyIss_eq (isRead : Bool) (cond rt : BitVec 4) :
    familyIss isRead cond rt =
      0x1060800#25 ||| (cond.setWidth 25 <<< 20) ||| (rt.setWidth 25 <<< 5) ||| (if isRead then 1#25 else 0#25) := by
  revert isRead cond rt
  decide

/-- What an instruction raises comes with the detail of its direction, condition and register (rule R104). -/
theorem raisesOf_issOf_of_exec_fault {i : Instr} {s : State} {f : Fault} (h : exec i s = .fault f) :
    ∃ k : Fin 15, i.rt.val = k.val ∧
      raisesOf i s.cfg s.ctx (issOf s.cfg i.iset i.isRead (condOf s.ctx i) k) = some f := by
  obtain ⟨k, hk, hr⟩ := exec_fault_cases h
  refine ⟨k, (rtIndex_eq_some.1 hk).1, ?_⟩
  obtain ⟨hi, hr⟩ | ⟨hi, hr⟩ := hr <;> rw [raisesOf, hi]
  · exact hr
  · exact hr

/-- Settles O25: whatever traps carries the detail its checks are given, which is laid out as R104 says. -/
theorem familySyndromeDetail : Obligations.FamilySyndromeDetail := by
  intro i s why ec iss hfam h
  have hiss : ∃ k : Fin 15, i.rt.val = k.val ∧ iss = issOf s.cfg i.iset i.isRead (condOf s.ctx i) k := by
    obtain h | h := h <;> obtain ⟨k, hk, hr⟩ := raisesOf_issOf_of_exec_fault h
    · obtain ⟨-, -, -, e⟩ := raisesOf_eq_trapToEL2A64.1 hr
      exact ⟨k, hk, e⟩
    · obtain ⟨-, -, -, e⟩ := raisesOf_eq_hypTrap.1 hr
      exact ⟨k, hk, e⟩
  obtain ⟨k, hk, rfl⟩ := hiss
  have hrt : ∀ k : Fin 15, (BitVec.ofNat 4 k.val).setWidth 25 = BitVec.ofNat 25 k.val := by decide
  rw [issOf, if_pos hfam, familyIss_eq, hrt, hk]

end Sys2Proof.Machine
end

section
/-! PROOFS. Fields and masks (10_state.md sections 2 and 3), and what a translation makes of them (20_memory.md). -/

namespace Sys2Proof.Machine

/-! ## Fields and masks -/

theorem Ttbr.num_inj {n n' : Ttbr} (h : n.num = n'.num) : n = n' := by
  revert h; cases n <;> cases n' <;> decide

theorem HwBit.pos_inj {b b' : HwBit} (h : b.pos = b'.pos) : b = b' := by
  revert h; cases b <;> cases b' <;> decide

theorem Ttbr.num_le (n : Ttbr) : n.num ≤ 1 := by cases n <;> decide

theorem HwBit.pos_bounds (b : HwBit) : 59 ≤ b.pos ∧ b.pos ≤ 62 := by cases b <;> decide

/-- No two fields stand at one bit (rule R14). -/
theorem Field.pos_inj {f f' : Field} (h : f.pos = f'.pos) : f = f' := by
  cases f with
  | hpd n =>
    have hn := n.num_le
    cases f' with
    | hpd n' =>
      simp only [Field.pos] at h
      rw [Ttbr.num_inj (n := n) (n' := n') (by omega)]
    | hwu n' b' =>
      simp only [Field.pos] at h
      omega
  | hwu n b =>
    have hn := n.num_le
    have hb := b.pos_bounds
    cases f' with
    | hpd n' =>
      have hn' := n'.num_le
      simp only [Field.pos] at h
      omega
    | hwu n' b' =>
      have hn' := n'.num_le
      have hb' := b'.pos_bounds
      simp only [Field.pos] at h
      rw [Ttbr.num_inj (n := n) (n' := n') (by omega), HwBit.pos_inj (b := b) (b' := b') (by omega)]

/-- Bits [18:11] are the HWU fields (rules R16 to R23). -/
theorem exists_hwu_pos {n : Nat} (h1 : 11 ≤ n) (h2 : n ≤ 18) : ∃ t b, (Field.hwu t b).pos = n := by
  interval_cases n
  · exact ⟨.ttbr0, .b59, rfl⟩
  · exact ⟨.ttbr0, .b60, rfl⟩
  · exact ⟨.ttbr0, .b61, rfl⟩
  · exact ⟨.ttbr0, .b62, rfl⟩
  · exact ⟨.ttbr1, .b59, rfl⟩
  · exact ⟨.ttbr1, .b60, rfl⟩
  · exact ⟨.ttbr1, .b61, rfl⟩
  · exact ⟨.ttbr1, .b62, rfl⟩

/-- FIELD_MASK holds the bits of the fields that exist, and no others (rule R27). -/
theorem fieldMask_getLsbD_iff (g : Config) (n : Nat) :
    (fieldMask g).getLsbD n = true ↔ ∃ f : Field, f.existsIn g = true ∧ f.pos = n := by
  constructor
  · intro h
    rw [fieldMask_getLsbD] at h
    simp only [Bool.or_eq_true, Bool.and_eq_true, decide_eq_true_eq] at h
    obtain (rfl | rfl) | ⟨hh, h1, h2⟩ := h
    · exact ⟨.hpd .ttbr0, rfl, rfl⟩
    · exact ⟨.hpd .ttbr1, rfl, rfl⟩
    · obtain ⟨t, b, hpos⟩ := exists_hwu_pos h1 h2
      exact ⟨.hwu t b, hh, hpos⟩
  · rintro ⟨f, hf, rfl⟩
    rw [fieldMask_getLsbD_pos, hf]

/-- Settles O27: positions are arithmetic in the half and the bit, and the masks are made of them. -/
theorem masksAreTheFields : Obligations.MasksAreTheFields := by
  refine ⟨fun f f' => Field.pos_inj, fieldMask_getLsbD_iff, fun g n => ?_⟩
  rw [writeMask, BitVec.getLsbD_or, BitVec.getLsbD_and, Bool.or_eq_true, Bool.and_eq_true, and_comm (a := _ = true)]

/-- `Active` in its three parts (rule R28). -/
theorem active_iff {g : Config} {c : Ctx} {b : Bank} :
    active g c b = true ↔ present g = true ∧ (ttbcrOf c b).eae = true ∧ (ttbcrOf c b).t2e = true := by
  simp only [active, Bool.and_eq_true, and_assoc]

/-- Settles O28: the condition is `Active`, with the TTBCR of the same bank. -/
theorem effIsFieldsWhereActive : Obligations.EffIsFieldsWhereActive := by
  intro s b t ht
  have ht' : t = ttbcrOf s.ctx b := by rw [ht]; cases b <;> rfl
  rw [ht', ← active_iff, eff_eq]
  exact ⟨fun h => by rw [if_pos h]; rfl, fun h => if_neg h⟩

/-! ## The step of a translation -/

/-- The state after a translation of the regime by a view. -/
def translated (q : WalkRequest) (v : View) (rest : List Turn) (s : State) : State :=
  { s with
    schedule := rest
    lastWalk := some (walkResult s.cfg (walkBank s.cfg s.ctx q.security) q (viewEff s.cfg v s.draws))
    draws := s.draws + 1 }

/-- The view a translation of a Security state picks among some (decisions D13, D14). -/
def chosenView (views : State → Bank → List View) (q : Security) (s : State) : View :=
  pickView (views s (walkBank s.cfg s.ctx q)) (currentView s (walkBank s.cfg s.ctx q)) s.draws

section Translation
variable {s : State} {q : WalkRequest} {rest : List Turn}

/-- A walk of the regime acts on a view that walks may use (rule R49). -/
theorem step_walk (hs : s.schedule = .env (.walk q) :: rest) (hq : q.regime = .pl10Stage1) :
    step s = .next (translated q (chosenView walkViews q.security s) rest s) := by
  rw [step_env hs]
  simp only [applyMove, doWalk, translateWith, hq]
  rfl

/-- A translation of the regime that may be served from a TLB acts on a view that these may use (rule R51). -/
theorem step_translate (hs : s.schedule = .env (.translate q) :: rest) (hq : q.regime = .pl10Stage1) :
    step s = .next (translated q (chosenView tlbViews q.security s) rest s) := by
  rw [step_env hs]
  simp only [applyMove, doTranslate, translateWith, hq]
  rfl

/-- The view picked does not depend on the entry that the walk ends at. -/
theorem step_walk_or_translate {move : WalkRequest → Move} (hm : move = .walk ∨ move = .translate)
    (hs : s.schedule = .env (move q) :: rest) (hq : q.regime = .pl10Stage1) :
    ∃ v, step s = .next (translated q v rest s) ∧
      ∀ e, step { s with schedule := .env (move { q with entry := e }) :: rest } =
        .next (translated { q with entry := e } v rest s) := by
  obtain rfl | rfl := hm
  · exact ⟨chosenView walkViews q.security s, step_walk hs hq,
      fun e => step_walk (s := { s with schedule := _ }) (q := { q with entry := e }) rfl hq⟩
  · exact ⟨chosenView tlbViews q.security s, step_translate hs hq,
      fun e => step_translate (s := { s with schedule := _ }) (q := { q with entry := e }) rfl hq⟩

end Translation

/-- What a walk picks is a view it may use. -/
theorem chosenView_walk_mem (q : Security) (s : State) :
    chosenView walkViews q s ∈ walkViews s (walkBank s.cfg s.ctx q) := pickView_mem Cell.views_ne_nil

/-- What a translation picks is a view it may use. -/
theorem chosenView_tlb_mem (q : Security) (s : State) :
    chosenView tlbViews q s ∈ tlbViews s (walkBank s.cfg s.ctx q) := pickView_mem tlbViews_ne_nil

/-! ## The hooks (rules R42, R43) -/

/-- With HPD of the half 0 the descriptors stand as held. -/
theorem map_hierBits_of_not_hpd {n : Ttbr} {e : Word} (h : effHpd n e = false) (ds : List HierBits) :
    ds.map (hierBits n e) = ds := by
  have hid : hierBits n e = id := by funext d; simp [hierBits, h]
  rw [hid, List.map_id]

/-- Settles O31: every descriptor is mapped by the one rule of its half. -/
theorem walkTakesHierarchicalBits : Obligations.WalkTakesHierarchicalBits := by
  intro s t q rest hs hq h
  obtain ⟨v, hv⟩ : ∃ v, step s = .next (translated q v rest s) := by
    obtain hs | hs := hs
    · exact ⟨_, step_walk hs hq⟩
    · exact ⟨_, step_translate hs hq⟩
  rw [hv] at h
  cases h
  refine ⟨_, rfl, List.length_map .., fun hhpd => map_hierBits_of_not_hpd hhpd _, fun hhpd d hd => ?_⟩
  obtain ⟨d', -, rfl⟩ := List.mem_map.1 hd
  have hhpd' : effHpd q.ttbr (viewEff s.cfg v s.draws) = true := hhpd
  rw [hierBits, if_pos hhpd']
  exact ⟨rfl, rfl, rfl⟩

theorem HwBit.mem_all (b : HwBit) : b ∈ HwBit.all := by cases b <;> decide

/-- The uses are those of the permitted bits, each with its free code (decision D19). -/
theorem mem_hwUses {g : Config} {q : WalkRequest} {e : Word} {b : HwBit} {u : Nat} :
    (b, u) ∈ hwUses g q e ↔
      effHwu g q.ttbr b e = true ∧ u = Config.hwuUse q.ttbr.num b.pos (q.entry.getLsbD b.pos) := by
  simp only [hwUses, hwMayUse, List.mem_map, List.mem_filter, HwBit.mem_all, true_and, Prod.mk.injEq]
  constructor
  · rintro ⟨b', hb, rfl, rfl⟩
    exact ⟨hb, rfl⟩
  · rintro ⟨hb, rfl⟩
    exact ⟨b, hb, rfl, rfl⟩

/-- Entries that agree in the permitted bits give the same result. -/
theorem walkResult_congr {g : Config} {b : Bank} {q : WalkRequest} {e : Word} {entry : BitVec 64}
    (h : ∀ hb, effHwu g q.ttbr hb e = true → entry.getLsbD hb.pos = q.entry.getLsbD hb.pos) :
    walkResult g b { q with entry := entry } e = walkResult g b q e := by
  have huses : hwUses g { q with entry := entry } e = hwUses g q e := by
    refine List.map_congr_left fun hb hmem => ?_
    have hmay : effHwu g q.ttbr hb e = true := (List.mem_filter.1 hmem).2
    simp only [h hb hmay]
  rw [walkResult, huses]
  rfl

/-- Settles O32: the uses name the permitted bits only, and an entry counts through its permitted bits only. -/
theorem hardwareUsesOnlyPermittedBits : Obligations.HardwareUsesOnlyPermittedBits := by
  intro s t q rest move hm hs hq h
  obtain ⟨v, hv, hentry⟩ := step_walk_or_translate hm hs hq
  rw [hv] at h
  cases h
  exact ⟨_, rfl, fun b u => mem_hwUses, fun e he => ⟨_, hentry e, congrArg some (walkResult_congr he)⟩⟩

/-! ## Which copy and which view -/

/-- The table of R41 with decision D5. -/
theorem walkBank_table (g : Config) (c : Ctx) (q : Security) :
    (g.haveEL3 = true → g.aa32EL3 = true → c.el3UsingAArch32 = true →
      (q = .secure → walkBank g c q = .secure) ∧ (q = .nonsecure → walkBank g c q = .nonsecure)) ∧
    ((g.haveEL3 = false ∨ g.aa32EL3 = false ∨ c.el3UsingAArch32 = false) → walkBank g c q = .plain) := by
  constructor
  · intro h1 h2 h3
    constructor <;> rintro rfl <;> simp [walkBank, e3a32, h1, h2, h3]
  · intro h
    have he : e3a32 g c = false := by obtain e | e | e := h <;> simp [e3a32, e]
    simp [walkBank, he]

/-- Settles O33: the view picked is one of the governing cell's own contents under the enable of now. -/
theorem walkActsOnNewOrUnsyncedContent : Obligations.WalkActsOnNewOrUnsyncedContent := by
  intro s q rest hs hq
  obtain ⟨hc, ha⟩ := Cell.mem_views.1 (chosenView_walk_mem q.security s)
  obtain ⟨hE3, hplain⟩ := walkBank_table s.cfg s.ctx q.security
  exact ⟨_, _, _, step_walk hs hq, rfl, rfl, hE3, hplain, hc, viewEff_of_walkView ha s.draws⟩

/-- Settles O48: the view picked is one that walks may use, or one kept for a TLB. -/
theorem translationActsOnVisibleView : Obligations.TranslationActsOnVisibleView := by
  intro s q rest hs hq
  have hv := mem_tlbViews.1 (chosenView_tlb_mem q.security s)
  refine ⟨_, _, _, step_translate hs hq, rfl, rfl, hv.imp_left Cell.mem_views.1, ?_⟩
  simp only [walkResult, viewEff, Bool.and_eq_true]

/-- Settles O34: the register has no part in it. -/
theorem otherRegimesUntouched : Obligations.OtherRegimesUntouched := by
  intro s q rest hs hq
  refine ⟨walkUntouched q, ?_, rfl, rfl, rfl⟩
  obtain hs | hs := hs <;> rw [step_env hs]
  · simp only [applyMove, doWalk, translateWith, hq]
  · simp only [applyMove, doTranslate, translateWith, hq]

end Sys2Proof.Machine
end

section
/-! PROOFS. Runs of two or three steps: writes that become visible, windows that close, resets, and the AArch64 name
(20_memory.md section 4, 70_reset_and_hazards.md, 10_state.md R13). -/

namespace Sys2Proof.Machine

/-! ## Windows that close -/

@[simp] theorem contextSync_cell_content (s : State) (b : Bank) :
    ((contextSync s).cell b).content = (s.cell b).content := by
  cases b <;> rfl

@[simp] theorem contextSync_cell_unsynced (s : State) (b : Bank) : ((contextSync s).cell b).unsynced = [] := by
  cases b <;> rfl

@[simp] theorem tlbInvalidateSync_cell_unsynced (s : State) (b : Bank) :
    ((tlbInvalidateSync s).cell b).unsynced = [] := by
  cases b <;> rfl

@[simp] theorem tlbInvalidateSync_cell_cached (s : State) (b : Bank) : ((tlbInvalidateSync s).cell b).cached = [] := by
  cases b <;> rfl

/-- Whose turn comes is nothing to a cell. -/
@[simp] theorem cell_schedule (s : State) (l : List Turn) (b : Bank) :
    ({ s with schedule := l } : State).cell b = s.cell b := by
  cases b <;> rfl

/-- The `Eff` word of a copy that holds a value (rule R28). -/
theorem eff_known {s : State} {b : Bank} {v : Word} (h : (s.cell b).content = .known (v &&& writeMask s.cfg)) :
    eff s b = if active s.cfg s.ctx b = true then v &&& fieldMask s.cfg else 0#32 := by
  have hmask : v &&& writeMask s.cfg &&& writeMask s.cfg &&& fieldMask s.cfg = v &&& fieldMask s.cfg := by
    rw [BitVec.and_assoc, BitVec.and_assoc, fieldMask_and_writeMask, fieldMask_and_writeMask]
  rw [eff_eq, readSR_known h, hmask]

@[simp] theorem eff_schedule (s : State) (l : List Turn) (b : Bank) : eff { s with schedule := l } b = eff s b := by
  simp only [eff, currentView, cell_schedule]

/-- A scheduled walk of the regime with nothing unsynchronised records the present `Eff` word (rule R49). -/
theorem step_walk_synced {s : State} {q : WalkRequest} {rest : List Turn} {b : Bank}
    (hs : s.schedule = .env (.walk q) :: rest) (hq : q.regime = .pl10Stage1)
    (hb : walkBank s.cfg s.ctx q.security = b) (h : (s.cell b).unsynced = []) :
    ∃ u, step s = .next u ∧ u.lastWalk = some (walkResult s.cfg b q (eff s b)) := by
  subst hb
  refine ⟨_, step_env hs, ?_⟩
  rw [doWalk_synced hq (by rwa [cell_schedule]), eff_schedule]

/-- A scheduled translation of the regime with nothing unsynchronised and nothing cached records the present `Eff` word
(decision D14). -/
theorem step_translate_synced {s : State} {q : WalkRequest} {rest : List Turn} {b : Bank}
    (hs : s.schedule = .env (.translate q) :: rest) (hq : q.regime = .pl10Stage1)
    (hb : walkBank s.cfg s.ctx q.security = b) (h : (s.cell b).unsynced = []) (hc : (s.cell b).cached = []) :
    ∃ u, step s = .next u ∧ u.lastWalk = some (walkResult s.cfg b q (eff s b)) := by
  subst hb
  refine ⟨_, step_env hs, ?_⟩
  rw [doTranslate_synced hq (by rwa [cell_schedule]) (by rwa [cell_schedule]), eff_schedule]

/-- Settles O35: the event leaves walks the written content only, and a read before it returns that already. -/
theorem synchronisedWriteGovernsWalks : Obligations.SynchronisedWriteGovernsWalks := by
  intro s i k q rest hi hw hk hc ha hp hq hb hs
  have hsync : step (mcrNext k s) =
      .next (contextSync { mcrNext k s with schedule := .env (.walk q) :: rest }) :=
    step_env ((mcrNext_schedule k s).trans hs)
  generalize ht' : contextSync { mcrNext k s with schedule := .env (.walk q) :: rest } = t' at hsync
  have hcfg : t'.cfg = s.cfg := by rw [← ht']; exact mcrNext_cfg k s
  have hctx : t'.ctx = s.ctx := by rw [← ht']; exact mcrNext_ctx k s
  have hcontent : (t'.cell (selectBank s.cfg s.ctx)).content = .known (s.x[k] &&& writeMask t'.cfg) := by
    rw [hcfg, ← ht', contextSync_cell_content, cell_schedule, mcrNext_content]
  have hsched : t'.schedule = .env (.walk q) :: rest := by rw [← ht']; rfl
  have hsynced : (t'.cell (selectBank s.cfg s.ctx)).unsynced = [] := by rw [← ht', contextSync_cell_unsynced]
  obtain ⟨u, hwalk, hlast⟩ := step_walk_synced hsched hq (by rw [hcfg, hctx, hb]) hsynced
  refine ⟨_, t', u, _, exec_eq_mcrNext hi hw hk hc ha hp, hsync, hwalk, hlast, ?_, fun j m hj hjw hjm hjc hra => ?_⟩
  · rw [walkResult, eff_known hcontent, hcfg, hctx]
  · refine ⟨_, exec_eq_mrcNext hj hjw hjm (by simpa using hjc) (by simpa using hra) (by simpa using hp), ?_⟩
    rw [mrcNext_x_self, mcrNext_cfg, mcrNext_ctx, readSR_mcrNext]

/-- Settles O37: an invalidation leaves translations the present content only. -/
theorem invalidationClosesTheWindow : Obligations.InvalidationClosesTheWindow := by
  intro s q rest b hs hq hb
  have hinv := step_env hs
  obtain ⟨u, hstep, hlast⟩ := step_translate_synced
    (s := tlbInvalidateSync { s with schedule := .env (.translate q) :: rest }) rfl hq hb.symm
    (tlbInvalidateSync_cell_unsynced _ b) (tlbInvalidateSync_cell_cached _ b)
  refine ⟨_, u, _, hinv, hstep, hlast, rfl, ?_⟩
  cases b <;> rfl

/-! ## Reset -/

/-- Settles O38: a reset renews both cells and takes the rest from the enclosing PE. -/
theorem resetMakesEveryCopyUnknown : Obligations.ResetMakesEveryCopyUnknown := by
  intro s kind r rest hs
  exact ⟨_, step_env hs, resetWith_cell_content _ .plain r, resetWith_cell_content _ .secure r, rfl, rfl, rfl, rfl, rfl,
    rfl⟩

theorem effHpd_zero (n : Ttbr) : effHpd n 0#32 = false := by cases n <;> rfl

/-- No entry bit may be used under the word zero. -/
theorem hwUses_zero (g : Config) (q : WalkRequest) : hwUses g q 0#32 = [] := by
  simp [hwUses, hwMayUse, effHwu, effHpd_zero]

/-- Settles O39: after a reset nothing older is left to walks, and a copy that is not enabled acts as zero. -/
theorem walkAfterResetActsOnZero : Obligations.WalkAfterResetActsOnZero := by
  intro s kind r q rest hs hq hoff
  obtain ⟨u, hstep, hlast⟩ := step_walk_synced (s := resetWith r { s with schedule := .env (.walk q) :: rest })
    (b := walkBank s.cfg r.ctx q.security) rfl hq rfl (resetWith_cell_unsynced ..)
  have hzero : eff (resetWith r { s with schedule := .env (.walk q) :: rest })
      (walkBank s.cfg r.ctx q.security) = 0#32 := by
    rw [eff_eq]
    exact if_neg fun h => hoff (active_iff.1 h).2
  rw [hzero] at hlast
  exact ⟨_, u, _, step_env hs, hstep, hlast, rfl, map_hierBits_of_not_hpd (effHpd_zero _) _, hwUses_zero _ _⟩

theorem Cell.ok_afterReset (g : Config) : Cell.afterReset.ok g :=
  ⟨rfl, nofun, nofun, List.nodup_nil, List.nodup_nil⟩

/-- Settles O42: memory is empty, and the cells have no content and no past. -/
theorem invariantAtReset : Obligations.InvariantAtReset :=
  ⟨rfl, Cell.ok_afterReset _, Cell.ok_afterReset _⟩

/-- Settles O47: no copy is enabled in the context after reset. -/
theorem resetStateContents : Obligations.ResetStateContents := by
  refine ⟨fun b => ⟨by cases b <;> rfl, ?_⟩, rfl, rfl⟩
  rw [eff_eq]
  exact if_neg (by cases b <;> decide)

/-! ## Context changes -/

@[simp] theorem Cell.onActive_content (a a' : Bool) (k : Cell) : (k.onActive a a').content = k.content := by
  unfold Cell.onActive
  split <;> rfl

@[simp] theorem Cell.onActive_unsynced (a a' : Bool) (k : Cell) : (k.onActive a a').unsynced = k.unsynced := by
  unfold Cell.onActive
  split <;> rfl

/-- Settles O50: a change is taken or refused by the premise of decision D4 alone. -/
theorem contextChangeIsTaken : Obligations.ContextChangeIsTaken := by
  intro s c rest hs
  rw [step_env hs]
  refine ⟨fun he => ⟨_, if_pos he, rfl, ?_, ?_, ?_, ?_⟩, fun hne => if_neg hne⟩
  · exact Cell.onActive_content ..
  · exact Cell.onActive_unsynced ..
  · exact Cell.onActive_content ..
  · exact Cell.onActive_unsynced ..

/-! ## The AArch64 name (rule R13) -/

theorem present_of_readAllowed {g : Config} {c : Ctx} (h : readAllowed g c = true) : present g = true := by
  simp only [readAllowed, Bool.and_eq_true] at h
  obtain ⟨⟨hp, -⟩, -⟩ := h
  exact hp

theorem present_of_writeAllowed {g : Config} {c : Ctx} (h : writeAllowed g c = true) : present g = true := by
  simp only [writeAllowed, Bool.and_eq_true] at h
  obtain ⟨⟨⟨hp, -⟩, -⟩, -⟩ := h
  exact hp

/-- Settles O40: within the premises the cell written is the one that is read. -/
theorem tcrWriteIsSeenByMrc : Obligations.TcrWriteIsSeenByMrc := by
  intro s v rest j k hs hb hj hw hk hc ha hp
  have hstep : step s = .next (writeSR (selectBank s.cfg s.ctx) (v.extractLsb' 32 32) { s with schedule := rest }) := by
    rw [step_env hs, ← nBank_of_selectBank hp hb]
    exact congrArg _ (if_pos (present_of_readAllowed ha))
  generalize ht : writeSR (selectBank s.cfg s.ctx) (v.extractLsb' 32 32) { s with schedule := rest } = t at hstep
  have hcfg : t.cfg = s.cfg := by rw [← ht, writeSR_cfg]
  have hctx : t.ctx = s.ctx := by rw [← ht, writeSR_ctx]
  have hcontent : (t.cell (selectBank s.cfg s.ctx)).content = .known (v.extractLsb' 32 32 &&& writeMask s.cfg) := by
    rw [← ht]
    exact writeSR_content { s with schedule := rest } _ _
  refine ⟨t, _, hstep, exec_eq_mrcNext hj hw hk (by rwa [hctx]) (by rwa [hcfg, hctx]) (by rwa [hcfg, hctx]),
    fun n hn => ?_, ?_⟩
  · rw [mrcNext_x_self, hcfg, hctx, readSR_known hcontent, hcfg, BitVec.and_assoc, BitVec.and_self, BitVec.getLsbD_and,
      BitVec.getLsbD_extractLsb', Nat.add_comm 32 n]
    simp [hn]
  · rw [← ht]
    exact writeSR_srS _ _ _ hb

/-- Settles O41: within the premises the cell written is the one that TCR_EL1 shows. -/
theorem mcrIsSeenByTcrRead : Obligations.McrIsSeenByTcrRead := by
  intro s i k rest hs hb hi hw hk hc ha hp
  have hn : nBank s.cfg s.ctx = selectBank s.cfg s.ctx := nBank_of_selectBank hp hb
  have hstep : step (mcrNext k s) = .next (readTcr { mcrNext k s with schedule := rest }) :=
    step_env ((mcrNext_schedule k s).trans hs)
  have hpr : present (mcrNext k s).cfg = true := by rw [mcrNext_cfg]; exact present_of_writeAllowed ha
  have hread : readTcr { mcrNext k s with schedule := rest } = _ := if_pos hpr
  refine ⟨_, _, exec_eq_mcrNext hi hw hk hc ha hp, hstep, ?_, ?_, ?_⟩ <;> rw [hread]
  · rw [mcrNext_cfg, mcrNext_ctx, hn]
    exact congrArg some (readSR_mcrNext k s)
  · rfl
  · rfl

end Sys2Proof.Machine
end
